-- ==== Sys2Proof/Word.lean ====
section
/-! DEFINITION. The word types of the block, one name per width the spec fixes (00_scope.md R7, R8).
A value the spec calls `uN` or `iN` is a bit vector of N bits; an `iN` is read with `BitVec.toInt`
(two's complement, R8; PRESUMED, safe or unsafe is said in log 17). -/

namespace Sys2Proof

/-- One byte of a payload or of an operand (20_memory.md R51). -/
abbrev Byte := BitVec 8

/-- A timestamp or a width in µs: `TS_WIDTH` = 32 bits, unsigned (R7, R72; log 10). -/
abbrev Stamp := BitVec 32

/-- One channel register: `CH_WIDTH` = 16 bits, unsigned (10_state.md R21; log 10). -/
abbrev Channel := BitVec 16

/-- The channel index: `IDX_WIDTH` = 4 bits, values 0 to 8 (10_state.md R24; log 10). -/
abbrev Index := BitVec 4

/-- An 8-bit unsigned field (`steeringAngle`). -/
abbrev U8 := BitVec 8

/-- An 8-bit signed field (`driveMode`, `velocity`, `acknowledged`), read with `toInt`. -/
abbrev I8 := BitVec 8

/-- A 16-bit signed field (`throttle`, `voltage`), read with `toInt`. -/
abbrev I16 := BitVec 16

/-- A frame identifier: `ID_WIDTH` = 29 bits (30_encoding.md R75; log 10). -/
abbrev FrameId := BitVec 29

/-- A requested or available length: `REQLEN_WIDTH` = 4 bits (30_encoding.md R75; log 10). -/
abbrev Length := BitVec 4

end Sys2Proof
end

