-- ==== Sys2Proof/Config.lean ====
section
/-! DEFINITION. What is fixed for the life of the block (00_scope.md R7): the spec's literals as named
constants, the OPEN parameters as constants with no body, and the free values (`any_N`, R10). -/

namespace Sys2Proof.Config

/-- `NUM_CH`: number of channel registers (R7). -/
@[simp] abbrev numCh : Nat := 8

/-- `CH_MIN`: lower clamp bound in µs (R7). -/
@[simp] abbrev chMin : Nat := 1000

/-- `CH_MAX`: upper clamp bound in µs (R7). -/
@[simp] abbrev chMax : Nat := 2000

/-- `CH_CENTER`: centre value in µs (R7). -/
@[simp] abbrev chCenter : Nat := 1500

/-- `SYNC_LO`: a synchronisation width is strictly greater (R7). -/
@[simp] abbrev syncLo : Nat := 3000

/-- `SYNC_HI`: a synchronisation width is strictly less, a lost signal strictly greater (R7;
the value 12000 itself: 90_conflicts.md C1, log 8). -/
@[simp] abbrev syncHi : Nat := 12000

/-- `CH_RESET[i]`: reset value of each channel register, the spec's default (R7, R221; log 7). -/
def chReset : Vector Channel numCh := Vector.replicate numCh (BitVec.ofNat _ chCenter)

/-- `LAST_EDGE_RESET`: reset value of `LAST_EDGE`, the spec's default (R7, R221; log 7). -/
def lastEdgeReset : Stamp := 0

/-- `FRAME_LEN`: bytes in a telemetry frame (R7). -/
@[simp] abbrev frameLen : Nat := 8

/-- `MIN_DECODE_LEN`: fewest payload bytes for which `DECODE` parses any field (R7). -/
@[simp] abbrev minDecodeLen : Nat := 4

/-- `VOLT_DIV`: the divisor `DECODE` applies to the voltage (R7). -/
@[simp] abbrev voltDiv : Int := 100

/-- `BUS_ID`, OPEN in the spec: no body, so nothing rests on a value (R31, R135; log 13; safe). -/
opaque busId : FrameId

/-- `BUS_EXT`, OPEN in the spec: no body (R31, R135; log 13; safe). -/
opaque busExt : Bool

/-- The `k`-th draw of `n` bits, `any_n` of R10 ("a value of N bits about which nothing may be
assumed"). No body: nothing can be proved of its value. `State.draws` supplies a fresh `k` for every
draw, so two evaluations may differ (41_telemetry_codec.md R144; log 6; safe). -/
opaque draw (n k : Nat) : BitVec n

/-- The degrees the ReceiverFrontend's linear map gives for a channel value where the map is not exact
or the value lies outside [1000,2000]: the spec gives no rounding (91_not_in_source.md N14; U18). Outside
the block (log 19; safe). -/
opaque steeringRounded (ch : Channel) : U8

/-- What the ReceiverFrontend hands on (throttle, steering) at its `k`-th read when the snapshot shows both
flags true: not stated, "any value" (93_implementation_defined.md U5, 00_scope.md R10). A fresh `k` for
every read, so that two reads of equal channels may differ. Outside the block (log 19; safe). -/
opaque bothFlagsPair (k : Nat) (ch : Vector Channel numCh) : Channel × U8

end Sys2Proof.Config
end

