-- ==== Sys2Proof/Syntax.lean ====
section
/-! DEFINITION. The operations of the block as syntax: one constructor of `Instr` per row of
opcode_table.json (00_scope.md R3, 30_encoding.md R88), the operand records of 30_encoding.md R70 to
R78, and the requests that carry operations to the block. -/

namespace Sys2Proof

/-- The channel registers `CH[0] … CH[7]`, `NUM_CH` of them (10_state.md R20; 00_scope.md R7). -/
abbrev Channels := Vector Channel Config.numCh

/-- The payload buffer `P[0] … P[7]`, `FRAME_LEN` bytes (20_memory.md R50, R53; 00_scope.md R7). -/
abbrev Payload := Vector Byte Config.frameLen

/-- The bytes `P[0] … P[3]`, `MIN_DECODE_LEN` of them: what `DECODE.PART` reads (41_telemetry_codec.md
R141; 00_scope.md R7). -/
abbrev PayloadHead := Vector Byte Config.minDecodeLen

/-- Format `FIELDS` (30_encoding.md R73), in the frame's order. -/
structure Fields where
  driveMode     : I8
  throttle      : I16
  steeringAngle : U8
  voltage       : I16
  velocity      : I8
  acknowledged  : I8
  deriving DecidableEq, Repr

/-- Format `RXMETA` (30_encoding.md R75). `reqLen` has a meaning only when `rtr` is true, `len` only
when it is false. -/
structure RxMeta where
  id     : FrameId
  ext    : Bool
  rtr    : Bool
  reqLen : Length
  len    : Length
  deriving DecidableEq, Repr

/-- The operations, one constructor per row of opcode_table.json. A case row (`edgeSync`, `decodePart`,
…) is the operation together with the statement that this case is the one selected (R79, R80; log 3),
and carries the operand bits its row lists. -/
inductive Instr where
  /-- `EDGE(now)`, R100. -/
  | edge (now : Stamp)
  /-- `EDGE.SYNC`, R101. -/
  | edgeSync (now : Stamp)
  /-- `EDGE.LOST`, R102. -/
  | edgeLost (now : Stamp)
  /-- `EDGE.CHAN`, R103. -/
  | edgeChan (now : Stamp)
  /-- `RDSNAP()`, R106. -/
  | rdsnap
  /-- `RESET()`, R220. -/
  | reset
  /-- `ENCODE(fields)`, R132. -/
  | encode (f : Fields)
  /-- `DECODE(meta, P)`, R138. Of the buffer `p` only the first `len` bytes exist (R85; log 14). -/
  | decode (rx : RxMeta) (p : Payload)
  /-- `DECODE.RTR`, R139: no payload byte. -/
  | decodeRtr (rx : RxMeta)
  /-- `DECODE.SHORT`, R140: no payload byte. -/
  | decodeShort (rx : RxMeta)
  /-- `DECODE.PART`, R141: the bytes `P[0..3]`. -/
  | decodePart (rx : RxMeta) (p : PayloadHead)
  /-- `DECODE.FULL`, R142: the bytes `P[0..7]`. -/
  | decodeFull (rx : RxMeta) (p : Payload)
  /-- `PULSE w`, R87. -/
  | pulse (w : Stamp)
  /-- `TRAIN g; w0, …, w(n−1)`, R87. -/
  | train (g : Stamp) (ws : List Stamp)
  deriving DecidableEq, Repr

/-- The names a request can carry, one per row of opcode_table.json: the port that fired (R88, D21)
or, for a case row or a pseudo-operation, the row's own name (log 2). -/
inductive Op where
  | edge | edgeSync | edgeLost | edgeChan | rdsnap | reset | encode
  | decode | decodeRtr | decodeShort | decodePart | decodeFull | pulse | train
  deriving DecidableEq, Repr

/-- One request to the block: which operation, and the bytes of its operand (log 2). -/
structure Request where
  op      : Op
  operand : List Byte
  deriving DecidableEq, Repr

/-- Who starts an operation (20_memory.md R63; 60_exceptions.md R200). The contexts differ in nothing
else: no state is held per context and no right is checked (R62, R200). -/
inductive Agent where
  /-- The receiver signal line, in interrupt context. -/
  | edgeAgent
  /-- The control task, in task context. -/
  | controlTask
  /-- The receive task, in task context. -/
  | receiveTask
  /-- The host, at power-on or restart. -/
  | host
  deriving DecidableEq, Repr

/-- The agent that issues an operation (20_memory.md R63). -/
def Instr.agent : Instr → Agent
  | .edge _ => .edgeAgent
  | .edgeSync _ => .edgeAgent
  | .edgeLost _ => .edgeAgent
  | .edgeChan _ => .edgeAgent
  | .rdsnap => .controlTask
  | .reset => .host
  | .encode _ => .controlTask
  | .decode _ _ => .receiveTask
  | .decodeRtr _ => .receiveTask
  | .decodeShort _ => .receiveTask
  | .decodePart _ _ => .receiveTask
  | .decodeFull _ _ => .receiveTask
  | .pulse _ => .edgeAgent
  | .train _ _ => .edgeAgent

end Sys2Proof
end

