-- ==== Sys2Proof/WellFormed.lean ====
section
/-! DEFINITION. Which operations are well formed. Every operand of an operation is legal as its type
says (30_encoding.md R84 (b) to (e)); `DECODE` with len > 8 is an operation that the block refuses
(R84 (a)), not an ill-formed one. What a term can get wrong is to name a `DECODE` case that its own
metadata does not select: the conditions are the table of 30_encoding.md R80, with the refusal of
R84 (a) before them. -/

namespace Sys2Proof

/-- An operation is well formed when the `DECODE` case it names is the one its metadata selects. The
`EDGE` cases are selected by the state (R79), so every `EDGE` term is well formed. -/
def Instr.wellFormed : Instr → Bool
  | .edge _ => true
  | .edgeSync _ => true
  | .edgeLost _ => true
  | .edgeChan _ => true
  | .rdsnap => true
  | .reset => true
  | .encode _ => true
  | .decode _ _ => true
  | .decodeRtr rx => rx.rtr && decide (rx.len.toNat ≤ Config.frameLen)
  | .decodeShort rx => !rx.rtr && decide (rx.len.toNat < Config.minDecodeLen)
  | .decodePart rx _ =>
    !rx.rtr && decide (Config.minDecodeLen ≤ rx.len.toNat ∧ rx.len.toNat < Config.frameLen)
  | .decodeFull rx _ => !rx.rtr && decide (rx.len.toNat = Config.frameLen)
  | .pulse _ => true
  | .train _ _ => true

end Sys2Proof
end

