-- ==== Sys2Proof/Decode.lean ====
section
/-! DEFINITION. From a request's bytes to an operation, and back. The spec packs only `FRAME8`
(30_encoding.md R71); the other operand records are packed by the model (DESIGN CHOICE, log 2): a
timestamp or width as four bytes, high byte first; `RXMETA` as forty bits, a zero bit and then `id`,
`ext`, `rtr`, `reqLen`, `len` in the order of R70, as five bytes, high byte first, the payload bytes
after them. -/

namespace Sys2Proof

/-- Why a request is no operation. Raised by `decode`, answered by `step` as a refusal (log 2; safe). -/
inductive DecodeError where
  /-- The operand does not have the length of the operation's format (R70). -/
  | operandLength (op : Op)
  /-- The unused bit above `RXMETA`'s 39 bits is set. -/
  | reservedBit (op : Op)
  /-- The metadata does not select the `DECODE` case the request names (R80). -/
  | caseNotSelected (op : Op)
  deriving DecidableEq, Repr

/-! ### Byte order -/

/-- The 16-bit value `hi ∥ lo` (R9). -/
def pairWord (hi lo : Byte) : BitVec 16 := hi ++ lo

/-- The high byte `v[15:8]` (R74). -/
def hiByte (v : BitVec 16) : Byte := v.extractLsb' 8 8

/-- The low byte `v[7:0]` (R74). -/
def loByte (v : BitVec 16) : Byte := v.extractLsb' 0 8

/-- A 32-bit operand from its four bytes, high byte first. -/
def stampOfBytes (a b c d : Byte) : Stamp := a ++ b ++ c ++ d

/-- The four bytes of a 32-bit operand, high byte first. -/
def stampBytes (v : Stamp) : List Byte :=
  [v.extractLsb' 24 8, v.extractLsb' 16 8, v.extractLsb' 8 8, v.extractLsb' 0 8]

/-- A sequence of 32-bit operands, four bytes each; none when bytes are left over. -/
def stampsOfBytes : List Byte → Option (List Stamp)
  | [] => some []
  | a :: b :: c :: d :: rest => (stampsOfBytes rest).map (stampOfBytes a b c d :: ·)
  | _ => none

/-- The `RXMETA` word: bit 39 unused, then `id`, `ext`, `rtr`, `reqLen`, `len` (R70, R75). -/
def RxMeta.word (rx : RxMeta) : BitVec 40 :=
  0#1 ++ rx.id ++ BitVec.ofBool rx.ext ++ BitVec.ofBool rx.rtr ++ rx.reqLen ++ rx.len

/-- The record an `RXMETA` word holds. -/
def RxMeta.ofWord (m : BitVec 40) : RxMeta :=
  { id := m.extractLsb' 10 29, ext := m.getLsbD 9, rtr := m.getLsbD 8,
    reqLen := m.extractLsb' 4 4, len := m.extractLsb' 0 4 }

/-- The `RXMETA` word from its five bytes, high byte first. -/
def metaOfBytes (a b c d e : Byte) : BitVec 40 := a ++ b ++ c ++ d ++ e

/-- The five bytes of an `RXMETA` word, high byte first. -/
def metaBytes (m : BitVec 40) : List Byte :=
  [m.extractLsb' 32 8, m.extractLsb' 24 8, m.extractLsb' 16 8, m.extractLsb' 8 8, m.extractLsb' 0 8]

/-! ### The decoder -/

/-- The operand of a `TS` operation (R72). -/
def decodeStamp (op : Op) (bytes : List Byte) (mk : Stamp → Instr) : Except DecodeError Instr :=
  match bytes with
  | [a, b, c, d] => .ok (mk (stampOfBytes a b c d))
  | _ => .error (.operandLength op)

/-- The metadata of a `DECODE` operand; the rest of the bytes goes to `mk`, which answers none when
their number is wrong. -/
def decodeMeta (op : Op) (bytes : List Byte) (mk : RxMeta → List Byte → Option Instr) :
    Except DecodeError Instr :=
  match bytes with
  | a :: b :: c :: d :: e :: payload =>
    if (metaOfBytes a b c d e).getLsbD 39 then .error (.reservedBit op)
    else
      match mk (RxMeta.ofWord (metaOfBytes a b c d e)) payload with
      | none => .error (.operandLength op)
      | some i => if i.wellFormed then .ok i else .error (.caseNotSelected op)
  | _ => .error (.operandLength op)

/-- An operation without operand (format `NONE`). -/
def decodeNone (op : Op) (bytes : List Byte) (i : Instr) : Except DecodeError Instr :=
  match bytes with
  | [] => .ok i
  | _ => .error (.operandLength op)

/-- Format `FIELDS`, laid out as opcode_table.json's row lays it out, that is as the frame (R71). -/
def decodeFields (op : Op) (bytes : List Byte) : Except DecodeError Instr :=
  match bytes with
  | [p0, p1, p2, p3, p4, p5, p6, p7] =>
    .ok (.encode { driveMode := p0, throttle := pairWord p1 p2, steeringAngle := p3,
                   voltage := pairWord p4 p5, velocity := p6, acknowledged := p7 })
  | _ => .error (.operandLength op)

/-- The payload of a request with eight bytes after the metadata. -/
def payload8 (mk : Payload → Instr) (bytes : List Byte) : Option Instr :=
  match bytes with
  | [p0, p1, p2, p3, p4, p5, p6, p7] => some (mk #v[p0, p1, p2, p3, p4, p5, p6, p7])
  | _ => none

/-- The payload of a request with four bytes after the metadata. -/
def payload4 (mk : PayloadHead → Instr) (bytes : List Byte) : Option Instr :=
  match bytes with
  | [p0, p1, p2, p3] => some (mk #v[p0, p1, p2, p3])
  | _ => none

/-- A request with nothing after the metadata. -/
def payload0 (i : Instr) (bytes : List Byte) : Option Instr :=
  match bytes with
  | [] => some i
  | _ => none

/-- The operand of `TRAIN`: the gap, then the channel widths. -/
def decodeTrain (bytes : List Byte) : Except DecodeError Instr :=
  match stampsOfBytes bytes with
  | some (g :: ws) => .ok (.train g ws)
  | _ => .error (.operandLength .train)

/-- The operation a request asks for (30_encoding.md R88: "a match on the port that fired"). Total on
any bytes. -/
def decode (r : Request) : Except DecodeError Instr :=
  match r.op with
  | .edge => decodeStamp .edge r.operand .edge
  | .edgeSync => decodeStamp .edgeSync r.operand .edgeSync
  | .edgeLost => decodeStamp .edgeLost r.operand .edgeLost
  | .edgeChan => decodeStamp .edgeChan r.operand .edgeChan
  | .rdsnap => decodeNone .rdsnap r.operand .rdsnap
  | .reset => decodeNone .reset r.operand .reset
  | .encode => decodeFields .encode r.operand
  | .decode => decodeMeta .decode r.operand fun rx => payload8 (.decode rx)
  | .decodeRtr => decodeMeta .decodeRtr r.operand fun rx => payload0 (.decodeRtr rx)
  | .decodeShort => decodeMeta .decodeShort r.operand fun rx => payload0 (.decodeShort rx)
  | .decodePart => decodeMeta .decodePart r.operand fun rx => payload4 (.decodePart rx)
  | .decodeFull => decodeMeta .decodeFull r.operand fun rx => payload8 (.decodeFull rx)
  | .pulse => decodeStamp .pulse r.operand .pulse
  | .train => decodeTrain r.operand

/-! ### The encoder -/

/-- Format `FIELDS` as bytes, in the frame's layout (R71, R73). -/
def fieldsBytes (f : Fields) : List Byte :=
  [f.driveMode, hiByte f.throttle, loByte f.throttle, f.steeringAngle,
   hiByte f.voltage, loByte f.voltage, f.velocity, f.acknowledged]

/-- The request that asks for an operation. -/
def encode : Instr → Request
  | .edge now => ⟨.edge, stampBytes now⟩
  | .edgeSync now => ⟨.edgeSync, stampBytes now⟩
  | .edgeLost now => ⟨.edgeLost, stampBytes now⟩
  | .edgeChan now => ⟨.edgeChan, stampBytes now⟩
  | .rdsnap => ⟨.rdsnap, []⟩
  | .reset => ⟨.reset, []⟩
  | .encode f => ⟨.encode, fieldsBytes f⟩
  | .decode rx p => ⟨.decode, metaBytes rx.word ++ p.toList⟩
  | .decodeRtr rx => ⟨.decodeRtr, metaBytes rx.word⟩
  | .decodeShort rx => ⟨.decodeShort, metaBytes rx.word⟩
  | .decodePart rx p => ⟨.decodePart, metaBytes rx.word ++ p.toList⟩
  | .decodeFull rx p => ⟨.decodeFull, metaBytes rx.word ++ p.toList⟩
  | .pulse w => ⟨.pulse, stampBytes w⟩
  | .train g ws => ⟨.train, (g :: ws).flatMap stampBytes⟩

/-! ### The words of opcode_table.json

The table's bits hold an operation's operand and nothing that says which operation it is: that is the
port that fired (R88). Five rows share the 32-bit words, three the 64-bit words, six have no bits. So a
table word is given to the port of its format (DESIGN CHOICE, log 4): 32 bits to `EDGE`, 64 bits to
`ENCODE`, no bits to `RDSNAP`. No format of R70 has a word of another width (25 to 31 bits, say), so such a
word is no operation: that it is refused, and not padded or cut to a format's width, is the model's choice
(DESIGN CHOICE, log 4). -/

/-- The low `8 * n` bits of a number as `n` bytes, high byte first. -/
def bytesOfNat : Nat → Nat → List Byte
  | 0, _ => []
  | n + 1, w => BitVec.ofNat 8 (w / 256 ^ n) :: bytesOfNat n w

/-- The request a table word of exactly `nbits` bits stands for. A width that is no row's width gives a
request without operand bytes at `EDGE`, which `decode` refuses (DESIGN CHOICE, log 4). -/
def tableRequest (nbits w : Nat) : Request :=
  if nbits = 0 then ⟨.rdsnap, []⟩
  else if nbits = 8 * Config.frameLen then ⟨.encode, bytesOfNat Config.frameLen w⟩
  else if nbits = 32 then ⟨.edge, bytesOfNat 4 w⟩
  else ⟨.edge, []⟩

/-- The instruction the decoder reads from a table word. -/
def decodeTableWord (nbits w : Nat) : Option Instr :=
  match decode (tableRequest nbits w) with
  | .ok i => some i
  | .error _ => none

end Sys2Proof
end

