-- ==== Sys2Proof/Machine/State.lean ====
section
/-! DEFINITION. The state of the block (10_state.md section 1), what its operations return, and how a
step can stop. -/

namespace Sys2Proof.Machine

/-- What `RDSNAP` returns (30_encoding.md R78): eight channels and two flags. -/
structure Snapshot where
  ch        : Channels
  available : Bool
  failsafe  : Bool
  deriving DecidableEq, Repr

/-- What one operation returns to its caller (30_encoding.md R88, column "result"). -/
inductive Result where
  /-- `RDSNAP`: the snapshot (R106). -/
  | snapshot (snap : Snapshot)
  /-- `ENCODE`: the frame and its metadata (R132). -/
  | frame (p : Payload) (rx : RxMeta)
  /-- `DECODE`: the received flag, the metadata and the fields (R138). -/
  | fields (received : Bool) (rx : RxMeta) (f : Fields)
  deriving DecidableEq, Repr

/-- The block's state. The codec holds none (R30); there is no program counter (R23) and no other
register (R32, R33, R36). -/
structure State where
  /-- `CH[0] … CH[7]` (R20, R21). -/
  ch        : Channels
  /-- `IDX` (R24). -/
  idx       : Index
  /-- `LAST_EDGE` (R29). -/
  lastEdge  : Stamp
  /-- `AVAILABLE` (R25). -/
  available : Bool
  /-- `FAILSAFE` (R26). -/
  failsafe  : Bool
  /-- The MODEL's own: the operations the agents issue from here on, in order (R11 "trace", R64; log 1). -/
  trace     : List Request
  /-- The MODEL's own: what the operation just performed returned (R11 "results"; log 5). -/
  result    : Option Result
  /-- The MODEL's own: how many draws `any_N` have been taken (R10; log 6). -/
  draws     : Nat
  deriving DecidableEq, Repr

/-- The block raises no exception and never traps or waits (60_exceptions.md R190;
93_implementation_defined.md, end of part 1): no step ends in a fault, so there is no constructor (log 20;
safe). -/
inductive Fault : Type
  deriving DecidableEq, Repr

/-- Why a step gives no next state. -/
inductive Refusal where
  /-- Raised by an arm of `exec` for an operation without a meaning yet; safe. No arm does. -/
  | notModelled (mnemonic : String)
  /-- Raised by `DECODE` with len > 8, "not a frame of this bus" (30_encoding.md R84 (a), R138; log 11);
  safe. -/
  | lengthAboveEight
  /-- Raised by an operation that names a case (EDGE.SYNC, DECODE.PART, …) whose selecting condition does
  not hold (R79, R80: "exactly one applies"; log 3); safe. -/
  | caseNotSelected (mnemonic : String)
  /-- Raised by `step` for a request whose operand is not of its operation's format (log 2); safe. -/
  | notAnOperation (e : DecodeError)
  deriving DecidableEq, Repr

/-- The machine right after reset (70_reset_and_hazards.md R220, R221; log 7): nothing is requested,
nothing has been returned, no draw has been taken. -/
def State.reset : State :=
  { ch := Config.chReset, idx := 0, lastEdge := Config.lastEdgeReset,
    available := false, failsafe := false, trace := [], result := none, draws := 0 }

end Sys2Proof.Machine
end

