-- ==== Sys2Proof/Machine/Flags.lean ====
section
/-! DEFINITION. Every flag computation of the spec (10_state.md R25, R26, R28): each writes `AVAILABLE`
and `FAILSAFE` as one operation does and nothing else. `RDSNAP`, `ENCODE` and `DECODE` have none. -/

namespace Sys2Proof.Machine.State

/-- `EDGE.SYNC` clears both flags (R101). -/
def flagsSync (s : State) : State := { s with available := false, failsafe := false }

/-- `EDGE.LOST` sets `FAILSAFE` and clears `AVAILABLE` (R102). -/
def flagsLost (s : State) : State := { s with available := false, failsafe := true }

/-- A captured channel sets `AVAILABLE` and leaves `FAILSAFE` (R103, R104; log 9). -/
def flagsCapture (s : State) : State := { s with available := true }

/-- `RESET` clears both flags (R220). -/
def flagsReset (s : State) : State := { s with available := false, failsafe := false }

end Sys2Proof.Machine.State
end

