-- ==== Sys2Proof/Machine/Operands.lean ====
section
/-! DEFINITION. The operand forms: the payload buffer and its accesses (00_scope.md R10, 20_memory.md
R53, R56), the fields a frame holds (30_encoding.md R71 to R77), and the selection of a `DECODE` case. -/

namespace Sys2Proof.Machine

/-! ### The payload buffer -/

/-- `MemRead(k, 1)` (R10). -/
def memRead1 (p : Payload) (k : Fin Config.frameLen) : Byte := p[k]

/-- `MemRead(k, 2)` = `P[k] ∥ P[k+1]`, big-endian (R10, R56). -/
def memRead2 (p : Payload) (k : Nat) (h : k + 1 < Config.frameLen := by decide) : BitVec 16 :=
  pairWord p[k] p[k + 1]

/-- `MemWrite(k, 1, v)` (R10). -/
def memWrite1 (p : Payload) (k : Fin Config.frameLen) (v : Byte) : Payload := p.set k v

/-- `MemWrite(k, 2, v)`: `P[k] <- v[15:8]`, `P[k+1] <- v[7:0]` (R10, R56). -/
def memWrite2 (p : Payload) (k : Nat) (v : BitVec 16) (h : k + 1 < Config.frameLen := by decide) :
    Payload :=
  (p.set k (hiByte v)).set (k + 1) (loByte v)

/-! ### ENCODE -/

/-- The eight bytes `ENCODE` makes of the fields: every operand bit goes to one frame bit, nothing is
scaled and nothing is checked (R132, R133, R136, R137). -/
def framePayload (f : Fields) : Payload :=
  #v[f.driveMode, hiByte f.throttle, loByte f.throttle, f.steeringAngle,
     hiByte f.voltage, loByte f.voltage, f.velocity, f.acknowledged]

/-- The metadata `ENCODE` returns (R132, R135); `reqLen` has no meaning for a data frame and is the
`k`-th draw. -/
def frameMeta (k : Nat) : RxMeta :=
  { id := Config.busId, ext := Config.busExt, rtr := false, reqLen := Config.draw _ k,
    len := BitVec.ofNat _ Config.frameLen }

/-! ### DECODE -/

/-- The exposed voltage: the signed 16-bit value divided by `VOLT_DIV`, truncating toward zero (R143;
log 15). The quotient lies in −327 to 327, so nothing is lost in 16 bits. -/
def scaledVoltage (v : I16) : I16 := BitVec.ofInt _ (v.toInt.tdiv Config.voltDiv)

/-- The cases of `DECODE` (30_encoding.md R80). -/
inductive DecodeCase where
  | rtr | short | part | full
  deriving DecidableEq, Repr

/-- The case the metadata selects once it is accepted: the remote-request test comes before the length
tests (R138; 60_exceptions.md R195). -/
def decodeCase (rx : RxMeta) : DecodeCase :=
  if rx.rtr then .rtr
  else if rx.len.toNat < Config.minDecodeLen then .short
  else if rx.len.toNat < Config.frameLen then .part
  else .full

/-- The metadata is refused: len > 8, tested before anything else (R84 (a), R138; log 11). -/
def lengthRefused (rx : RxMeta) : Bool := decide (Config.frameLen < rx.len.toNat)

/-- The metadata `DECODE` returns: passed through uninterpreted, with the member that has no meaning
replaced by the `k`-th draw (R138, U11). -/
def reportedMeta (rx : RxMeta) (k : Nat) : RxMeta :=
  if rx.rtr then { rx with len := Config.draw _ k }
  else { rx with reqLen := Config.draw _ k }

/-- Six draws, from the `k`-th on (R139, R140, R144). -/
def drawnFields (k : Nat) : Fields :=
  { driveMode := Config.draw _ k, throttle := Config.draw _ (k + 1),
    steeringAngle := Config.draw _ (k + 2), voltage := Config.draw _ (k + 3),
    velocity := Config.draw _ (k + 4), acknowledged := Config.draw _ (k + 5) }

/-- The fields of a frame of 4 to 7 bytes: three from `P[0..3]`, three draws from the `k`-th on (R141;
log 16). -/
def partFields (p : PayloadHead) (k : Nat) : Fields :=
  { driveMode := p[0], throttle := pairWord p[1] p[2], steeringAngle := p[3],
    voltage := Config.draw _ k, velocity := Config.draw _ (k + 1),
    acknowledged := Config.draw _ (k + 2) }

/-- The fields of a frame of 8 bytes (R142, R143). -/
def fullFields (p : Payload) : Fields :=
  { driveMode := memRead1 p 0, throttle := memRead2 p 1, steeringAngle := memRead1 p 3,
    voltage := scaledVoltage (memRead2 p 4), velocity := memRead1 p 6,
    acknowledged := memRead1 p 7 }

/-- The bytes `P[0..3]` of a payload buffer. -/
def firstFour (p : Payload) : PayloadHead := #v[p[0], p[1], p[2], p[3]]

end Sys2Proof.Machine
end

