-- ==== Sys2Proof/Machine/Ops.lean ====
section
/-! DEFINITION. The operations over the state that the meanings share. The block takes no exception
(60_exceptions.md R190): the one interrupt, the rising edge, starts `EDGE`, and its entry saves nothing
and changes no mode (R197, R198), so what stands here for "taking" it is `State.edgeWidth` and
`State.stamp`, the common part of every `EDGE` (40_pulse_decoder.md R100). -/

namespace Sys2Proof.Machine

/-! ### Registers -/

/-- `LAST_EDGE <- now` (R100). -/
def State.stamp (s : State) (now : Stamp) : State := { s with lastEdge := now }

/-- `IDX <- i`. -/
def State.setIdx (s : State) (i : Index) : State := { s with idx := i }

/-- `x[IDX] <- v`, only when `IDX` is within bounds; otherwise there is no access (20_memory.md R52). -/
def State.storeAtIdx (s : State) (v : Channel) : State :=
  if h : s.idx.toNat < Config.numCh then { s with ch := s.ch.set s.idx.toNat v h } else s

/-- The value handed back to the caller of the operation, none for an operation without result (log 5). -/
def State.answer (s : State) (r : Option Result) : State := { s with result := r }

/-- `n` draws have been taken (R10, R144; log 6). -/
def State.drawn (s : State) (n : Nat) : State := { s with draws := s.draws + n }

/-! ### The arithmetic of the decoder (40_pulse_decoder.md R107) -/

/-- `w = (now − LAST_EDGE) mod 2^32` (R100, R107). -/
def State.edgeWidth (s : State) (now : Stamp) : Stamp := now - s.lastEdge

/-- `clamp(v, lo, hi)`, compared as unsigned integers (R10, R105). -/
def clamp (v lo hi : Nat) : Nat := if v < lo then lo else if hi < v then hi else v

/-- The value `EDGE.CHAN` stores: the clamp is made on the full width, then truncated (R103, R105). -/
def channelValue (w : Stamp) : Channel :=
  BitVec.ofNat _ (clamp w.toNat Config.chMin Config.chMax)

/-- The cases of `EDGE` (30_encoding.md R79). -/
inductive EdgeCase where
  | sync | lost | chan
  deriving DecidableEq, Repr

/-- Case selection of `EDGE` by the width alone (R79, R100; the width 12000: 90_conflicts.md C1, log 8). -/
def edgeCase (w : Stamp) : EdgeCase :=
  if Config.syncLo < w.toNat ∧ w.toNat < Config.syncHi then .sync
  else if Config.syncHi < w.toNat then .lost
  else .chan

/-! ### The three cases of an edge, on the registers -/

/-- `EDGE.SYNC` (R101). -/
def State.syncEdge (s : State) (now : Stamp) : State :=
  (((s.stamp now).setIdx 0).flagsSync).answer none

/-- `EDGE.LOST` (R102): no channel write, the index stays. -/
def State.lostEdge (s : State) (now : Stamp) : State :=
  ((s.stamp now).flagsLost).answer none

/-- The in-bounds branch of `EDGE.CHAN` (R103, R104). -/
def State.capture (s : State) (w : Stamp) : State :=
  if s.idx.toNat < Config.numCh then
    ((s.storeAtIdx (channelValue w)).setIdx (s.idx + 1)).flagsCapture
  else s

/-- `EDGE.CHAN` (R103). -/
def State.chanEdge (s : State) (now : Stamp) : State :=
  ((s.capture (s.edgeWidth now)).stamp now).answer none

/-- `EDGE` (R100): the width selects exactly one case (R79). -/
def State.edge (s : State) (now : Stamp) : State :=
  match edgeCase (s.edgeWidth now) with
  | .sync => s.syncEdge now
  | .lost => s.lostEdge now
  | .chan => s.chanEdge now

/-- `PULSE w`: the edge that arrives `w` µs after the previous one (30_encoding.md R87). -/
def State.pulseEdge (s : State) (w : Stamp) : State := s.edge (s.lastEdge + w)

/-- One pulse after another, with no other operation between them (R87; log 12). -/
def State.pulseEdges (s : State) : List Stamp → State
  | [] => s
  | w :: ws => (s.pulseEdge w).pulseEdges ws

/-! ### Reading and resetting the decoder -/

/-- The ten values `RDSNAP` returns, taken at one instant (R106; 20_memory.md R60). -/
def State.snapshot (s : State) : Snapshot :=
  { ch := s.ch, available := s.available, failsafe := s.failsafe }

/-- `RESET` with given parameters `CH_RESET` and `LAST_EDGE_RESET` (R220, R222). -/
def State.resetDecoder (s : State) (chReset : Channels) (lastReset : Stamp) : State :=
  ({ s with ch := chReset, idx := 0, lastEdge := lastReset }).flagsReset

/-! ### Handing a decoded frame back -/

/-- The common end of every accepted `DECODE` (R138): the frame is reported as received, with its
metadata (one draw) and the fields, for which `n` more draws are taken. -/
def State.reportFields (s : State) (rx : RxMeta) (f : Fields) (n : Nat) : State :=
  (s.answer (some (.fields true (reportedMeta rx s.draws) f))).drawn (n + 1)

/-- The result of a frame that yields no fields (R139, R140). -/
def State.reportNone (s : State) (rx : RxMeta) : State :=
  s.reportFields rx (drawnFields (s.draws + 1)) 6

/-- The result of a frame of 4 to 7 bytes (R141). -/
def State.reportPart (s : State) (rx : RxMeta) (p : PayloadHead) : State :=
  s.reportFields rx (partFields p (s.draws + 1)) 3

/-- The result of a frame of 8 bytes (R142). -/
def State.reportFull (s : State) (rx : RxMeta) (p : Payload) : State :=
  s.reportFields rx (fullFields p) 0

/-- A case operation of `DECODE`: refused when its metadata is refused or selects another case. -/
def inCase (rx : RxMeta) (c : DecodeCase) (mnemonic : String) (t : State) :
    Host.Outcome State Fault Refusal :=
  if lengthRefused rx then .refused .lengthAboveEight
  else if decodeCase rx = c then .next t
  else .refused (.caseNotSelected mnemonic)

/-- A case operation of `EDGE`: refused when the width selects another case. -/
def inEdgeCase (s : State) (now : Stamp) (c : EdgeCase) (mnemonic : String) (t : State) :
    Host.Outcome State Fault Refusal :=
  if edgeCase (s.edgeWidth now) = c then .next t else .refused (.caseNotSelected mnemonic)

end Sys2Proof.Machine
end

