-- ==== Sys2Proof/Machine/Pseudo.lean ====
section
/-! DEFINITION. The meanings of the pseudo-operations, abbreviations for `EDGE` operations
(30_encoding.md R87). -/

namespace Sys2Proof.Machine

open Host (Outcome)

/-- `PULSE w`: `EDGE now=(LAST_EDGE + w) mod 2^32` (R87). -/
def execPulse (w : Stamp) (s : State) : Outcome State Fault Refusal := .next (s.pulseEdge w)

/-- `TRAIN g; w0, …, w(n−1)`: `PULSE g`, then `PULSE w0`, …, `PULSE w(n−1)` (R87; log 12). -/
def execTrain (g : Stamp) (ws : List Stamp) (s : State) : Outcome State Fault Refusal :=
  .next (s.pulseEdges (g :: ws))

end Sys2Proof.Machine
end

