-- ==== Sys2Proof/Machine/PulseDecoder.lean ====
section
/-! DEFINITION. The meanings of the PulseDecoder's operations (40_pulse_decoder.md,
70_reset_and_hazards.md R220). -/

namespace Sys2Proof.Machine

open Host (Outcome)

/-- `EDGE(now)` (R100). -/
def execEdge (now : Stamp) (s : State) : Outcome State Fault Refusal := .next (s.edge now)

/-- `EDGE.SYNC` (R101), selected when 3000 < w < 12000. -/
def execEdgeSync (now : Stamp) (s : State) : Outcome State Fault Refusal :=
  inEdgeCase s now .sync "EDGE.SYNC" (s.syncEdge now)

/-- `EDGE.LOST` (R102), selected when w > 12000. -/
def execEdgeLost (now : Stamp) (s : State) : Outcome State Fault Refusal :=
  inEdgeCase s now .lost "EDGE.LOST" (s.lostEdge now)

/-- `EDGE.CHAN` (R103), selected otherwise. -/
def execEdgeChan (now : Stamp) (s : State) : Outcome State Fault Refusal :=
  inEdgeCase s now .chan "EDGE.CHAN" (s.chanEdge now)

/-- `RDSNAP()` (R106): a pure read; no register is written (R108). -/
def execRdsnap (s : State) : Outcome State Fault Refusal :=
  .next (s.answer (some (.snapshot s.snapshot)))

/-- `RESET()` (R220). The codec has nothing to reset (R223). -/
def execReset (s : State) : Outcome State Fault Refusal :=
  .next ((s.resetDecoder Config.chReset Config.lastEdgeReset).answer none)

end Sys2Proof.Machine
end

