-- ==== Sys2Proof/Machine/TelemetryCodec.lean ====
section
/-! DEFINITION. The meanings of the TelemetryCodec's operations (41_telemetry_codec.md). None touches a
register of the decoder (20_memory.md R65). -/

namespace Sys2Proof.Machine

open Host (Outcome)

/-- `ENCODE(fields)` (R132, R135 to R137). -/
def execEncode (f : Fields) (s : State) : Outcome State Fault Refusal :=
  .next ((s.answer (some (.frame (framePayload f) (frameMeta s.draws)))).drawn 1)

/-- `DECODE(meta, P)` (R138): refused when len > 8, otherwise exactly one case (R80). -/
def execDecode (rx : RxMeta) (p : Payload) (s : State) : Outcome State Fault Refusal :=
  if lengthRefused rx then .refused .lengthAboveEight
  else
    match decodeCase rx with
    | .rtr => .next (s.reportNone rx)
    | .short => .next (s.reportNone rx)
    | .part => .next (s.reportPart rx (firstFour p))
    | .full => .next (s.reportFull rx p)

/-- `DECODE.RTR` (R139). -/
def execDecodeRtr (rx : RxMeta) (s : State) : Outcome State Fault Refusal :=
  inCase rx .rtr "DECODE.RTR" (s.reportNone rx)

/-- `DECODE.SHORT` (R140). -/
def execDecodeShort (rx : RxMeta) (s : State) : Outcome State Fault Refusal :=
  inCase rx .short "DECODE.SHORT" (s.reportNone rx)

/-- `DECODE.PART` (R141). -/
def execDecodePart (rx : RxMeta) (p : PayloadHead) (s : State) : Outcome State Fault Refusal :=
  inCase rx .part "DECODE.PART" (s.reportPart rx p)

/-- `DECODE.FULL` (R142, R143). -/
def execDecodeFull (rx : RxMeta) (p : Payload) (s : State) : Outcome State Fault Refusal :=
  inCase rx .full "DECODE.FULL" (s.reportFull rx p)

end Sys2Proof.Machine
end

