-- ==== Sys2Proof/Machine/Dispatch.lean ====
section
/-! DEFINITION. One arm per operation (opcode_table.json), each one direct call of its meaning. -/

namespace Sys2Proof.Machine

def exec (i : Instr) (s : State) : Host.Outcome State Fault Refusal :=
  match i with
  | .edge now => Sys2Proof.Machine.execEdge now s
  | .edgeSync now => Sys2Proof.Machine.execEdgeSync now s
  | .edgeLost now => Sys2Proof.Machine.execEdgeLost now s
  | .edgeChan now => Sys2Proof.Machine.execEdgeChan now s
  | .rdsnap => Sys2Proof.Machine.execRdsnap s
  | .reset => Sys2Proof.Machine.execReset s
  | .encode f => Sys2Proof.Machine.execEncode f s
  | .decode rx p => Sys2Proof.Machine.execDecode rx p s
  | .decodeRtr rx => Sys2Proof.Machine.execDecodeRtr rx s
  | .decodeShort rx => Sys2Proof.Machine.execDecodeShort rx s
  | .decodePart rx p => Sys2Proof.Machine.execDecodePart rx p s
  | .decodeFull rx p => Sys2Proof.Machine.execDecodeFull rx p s
  | .pulse w => Sys2Proof.Machine.execPulse w s
  | .train g ws => Sys2Proof.Machine.execTrain g ws s

end Sys2Proof.Machine
end

