-- ==== Sys2Proof/Machine/Step.lean ====
section
/-! DEFINITION. One step: the next operation of the trace, performed whole (00_scope.md R11,
20_memory.md R60, R64). -/

namespace Sys2Proof.Machine

/-- One step of the block. With nothing requested no operation occurs and the state is as it was
(70_reset_and_hazards.md R231; log 1); otherwise the first request of the trace is taken off it, decoded
and performed. -/
def step (s : State) : Host.Outcome State Fault Refusal :=
  match s.trace with
  | [] => .next s
  | r :: rest =>
    match decode r with
    | .ok i => exec i { s with trace := rest }
    | .error e => .refused (.notAnOperation e)

/-- The state in which the agents' next request is the one a table word stands for (log 1, log 4). -/
def State.withFetchWord (s : State) (nbits w : Nat) : State :=
  { s with trace := tableRequest nbits w :: s.trace }

end Sys2Proof.Machine
end

