-- ==== Sys2Proof/Machine/Boundary.lean ====
section
/-! DEFINITION. The surrounding software at the block's boundary (45_environment_boundary.md), as plain
functions of what the block returns. It is OUTSIDE the block (00_scope.md R5): nothing here is in `State`,
`exec` or `step`, and no operation of the block depends on it (log 19). The drive mode's value space is
30_encoding.md R81 to R83. -/

namespace Sys2Proof.Machine

/-! ### The drive modes -/

/-- The arbiter's modes (30_encoding.md R81). Of `controller` the spec says that it is defined and "not
reachable in the active configuration" (R83); what a received byte 1 does is settled at `Arbiter.receive`
(log 23). -/
inductive DriveMode where
  | busCommand | controller | selfTest | radioCommand
  deriving DecidableEq, Repr

/-- The mode a `driveMode` byte names; none for the reserved values −128 to −1 and 4 to 127 (R81, R82).
Only the value 3 is the document's own statement (D19; log 21). -/
def driveModeOf (b : I8) : Option DriveMode :=
  if b = 0 then some .busCommand
  else if b = 1 then some .controller
  else if b = 2 then some .selfTest
  else if b = 3 then some .radioCommand
  else none

/-! ### The consumer of RDSNAP -/

/-- `CommandPair` (45_environment_boundary.md R173): throttle in µs, steering in degrees. -/
structure CommandPair where
  throttle      : BitVec 16
  steeringAngle : U8
  deriving DecidableEq, Repr

/-- The centre steering angle in degrees (R172, R182). -/
@[simp] abbrev centerAngle : Nat := 90

/-- The largest steering angle in degrees (R171). -/
@[simp] abbrev maxAngle : Nat := 180

/-- The actuator's tolerance around the centre in degrees (R182). -/
@[simp] abbrev centerTolerance : Nat := 3

/-- The span of the channel range in µs, `CH_MAX` − `CH_MIN` (R171, R174). -/
@[simp] abbrev channelSpan : Nat := Config.chMax - Config.chMin

/-- The neutral pair `{1500, 90}` (R172, R173). -/
def CommandPair.neutral : CommandPair :=
  { throttle := BitVec.ofNat _ Config.chCenter, steeringAngle := BitVec.ofNat _ centerAngle }

/-- Steering "linearly mapped from [1000,2000] µs to [0,180]°" (R171): exact where the map is, a free
value elsewhere (U18). -/
def steeringDegrees (ch : Channel) : U8 :=
  if Config.chMin ≤ ch.toNat ∧ ch.toNat ≤ Config.chMax ∧
      (ch.toNat - Config.chMin) * maxAngle % channelSpan = 0 then
    BitVec.ofNat _ ((ch.toNat - Config.chMin) * maxAngle / channelSpan)
  else Config.steeringRounded ch

/-- The pulse-train source of the ReceiverFrontend at its `k`-th read (R171, R172): neutral without
available data, a draw when both flags are true (U5, R10; the caller gives a fresh `k`). -/
def frontEnd (k : Nat) (snap : Snapshot) : CommandPair :=
  if snap.available then
    if snap.failsafe then
      { throttle := (Config.bothFlagsPair k snap.ch).1,
        steeringAngle := (Config.bothFlagsPair k snap.ch).2 }
    else { throttle := snap.ch[0], steeringAngle := steeringDegrees snap.ch[1] }
  else .neutral

/-- The serial-framed source's rescaling of one calibrated value, before any rounding (R174). -/
def serialMicros (value : ℚ) : ℚ :=
  max Config.chMin (min Config.chMax (value * channelSpan / 2 + Config.chCenter))

/-! ### The caller of DECODE -/

/-- When a caller may use `driveMode`, `throttle` and `steeringAngle` (R178). -/
def commandUsable (rx : RxMeta) : Bool := !rx.rtr && decide (Config.minDecodeLen ≤ rx.len.toNat)

/-- When a caller may use `voltage`, `velocity` and `acknowledged` (R178). -/
def telemetryUsable (rx : RxMeta) : Bool := !rx.rtr && decide (rx.len.toNat = Config.frameLen)

/-- When a caller may use `reqLen` (R178). -/
def reqLenUsable (rx : RxMeta) : Bool := rx.rtr

/-- The arbiter's shared state (R177): `DriveModeState` and `SharedCommandCache`. The spec gives the cached
throttle no type; the cache holds a `CommandPair` (DESIGN CHOICE, log 24). -/
structure Arbiter where
  mode  : DriveMode
  cache : CommandPair
  deriving DecidableEq, Repr

/-- What the receive loop does with a decode result (R176, R178): the mode and the cache are written only
from a frame whose fields may be used. None where the byte names no mode, which the spec leaves open
(U6).
DESIGN CHOICE (log 23): the byte 1 puts the arbiter in `controller`, by R176's "value carried in an incoming
decoded bus frame", although R83 and R180 call that mode not reachable.
DESIGN CHOICE (log 24): the decoded `i16` throttle is cached as its 16-bit pattern, so −300 is cached as
65236. -/
def Arbiter.receive (a : Arbiter) (rx : RxMeta) (f : Fields) : Option Arbiter :=
  if commandUsable rx then
    (driveModeOf f.driveMode).map fun m =>
      { mode := m, cache := { throttle := f.throttle, steeringAngle := f.steeringAngle } }
  else some a

/-! ### The caller of ENCODE and the actuator -/

/-- The only mode described as calling `ENCODE` (R179). -/
def DriveMode.transmits (m : DriveMode) : Bool := decide (m = .radioCommand)

/-- The telemetry of `RADIO_COMMAND` (R179): the applied command, with a mode byte and three placeholder
values the document does not give (N12, U19), here arguments.
DESIGN CHOICE (log 24): the caller's narrowing of the unsigned throttle to `i16`, which R137 leaves to the
caller, keeps the 16-bit pattern, for every value, also outside 1000 to 2000. -/
def radioFields (c : CommandPair) (driveMode : I8) (voltage : I16) (velocity acknowledged : I8) : Fields :=
  { driveMode := driveMode, throttle := c.throttle, steeringAngle := c.steeringAngle,
    voltage := voltage, velocity := velocity, acknowledged := acknowledged }

/-- The actuator boundary's centre tolerance (R182): within ±3 of 90, read as inclusive, is 90. -/
def actuatorAngle (angle : U8) : U8 :=
  if centerAngle - centerTolerance ≤ angle.toNat ∧ angle.toNat ≤ centerAngle + centerTolerance then
    BitVec.ofNat _ centerAngle
  else angle

end Sys2Proof.Machine
end

