-- ==== Sys2Proof/Safety.lean ====
section
/-! DEFINITION. What claims about the block are stated in: the spec's own notation for widths, clamping
and signed values, the registers as one thing, and the invariants of 40_pulse_decoder.md R110. None of
it is used by the machine. The numbers of 00_scope.md R7 are written out here on purpose, as the spec's
rules write them, so that a statement also checks the named constants of Config.lean, which the machine
uses. -/

namespace Sys2Proof.Machine

/-! ### The spec's notation -/

/-- A synchronisation width: 3001 to 11999 (30_encoding.md R79). -/
abbrev SyncWidth (w : Stamp) : Prop := 3000 < w.toNat ∧ w.toNat < 12000

/-- A width that means the signal was absent: 12001 and above (R79). -/
abbrev LostWidth (w : Stamp) : Prop := 12000 < w.toNat

/-- A channel width: 0 to 3000, and 12000 (R79; 90_conflicts.md C1). -/
abbrev ChanWidth (w : Stamp) : Prop := w.toNat ≤ 3000 ∨ w.toNat = 12000

/-- What a captured width is stored as (R105): 1000 below 1000, 2000 above 2000, itself between. -/
def storedMicros (w : Stamp) : Nat :=
  if w.toNat < 1000 then 1000 else if 2000 < w.toNat then 2000 else w.toNat

/-- `signed(v)` of an N-bit pattern (00_scope.md R9, 30_encoding.md R74). -/
def signedOf (n v : Nat) : Int := if v < 2 ^ (n - 1) then (v : Int) else (v : Int) - 2 ^ n

/-- The 16-bit pattern `hi ∥ lo` as a number (R74). -/
def bigEndian (hi lo : Byte) : Nat := hi.toNat * 256 + lo.toNat

/-- The width of the edge an operation brings, none for an operation that brings none or several. -/
def edgeWidthOf (i : Instr) (s : State) : Option Stamp :=
  match i with
  | .edge now => some (now - s.lastEdge)
  | .edgeSync now => some (now - s.lastEdge)
  | .edgeLost now => some (now - s.lastEdge)
  | .edgeChan now => some (now - s.lastEdge)
  | .pulse w => some w
  | .rdsnap => none
  | .reset => none
  | .encode _ => none
  | .decode _ _ => none
  | .decodeRtr _ => none
  | .decodeShort _ => none
  | .decodePart _ _ => none
  | .decodeFull _ _ => none
  | .train _ _ => none

/-- The six fields are six draws, from the `k`-th on (41_telemetry_codec.md R139, R140, R144; log 6). -/
structure FieldsAreDraws (k : Nat) (f : Fields) : Prop where
  driveMode     : f.driveMode = Config.draw 8 k
  throttle      : f.throttle = Config.draw 16 (k + 1)
  steeringAngle : f.steeringAngle = Config.draw 8 (k + 2)
  voltage       : f.voltage = Config.draw 16 (k + 3)
  velocity      : f.velocity = Config.draw 8 (k + 4)
  acknowledged  : f.acknowledged = Config.draw 8 (k + 5)

/-- The operations of the TelemetryCodec (30_encoding.md R88). -/
def isCodecOp : Instr → Bool
  | .encode _ => true
  | .decode _ _ => true
  | .decodeRtr _ => true
  | .decodeShort _ => true
  | .decodePart _ _ => true
  | .decodeFull _ _ => true
  | .edge _ => false
  | .edgeSync _ => false
  | .edgeLost _ => false
  | .edgeChan _ => false
  | .rdsnap => false
  | .reset => false
  | .pulse _ => false
  | .train _ _ => false

/-! ### The registers -/

/-- Two states hold the same in every register the spec gives the block (10_state.md section 1). -/
structure SameRegisters (s t : State) : Prop where
  ch        : t.ch = s.ch
  idx       : t.idx = s.idx
  lastEdge  : t.lastEdge = s.lastEdge
  available : t.available = s.available
  failsafe  : t.failsafe = s.failsafe

/-- What an operation without a result leaves alone beside the registers: the requests still to come and
the draws taken. -/
structure ReturnsNothing (s t : State) : Prop where
  trace  : t.trace = s.trace
  draws  : t.draws = s.draws
  result : t.result = none

/-! ### The invariants of every reachable state -/

/-- A channel register holds its reset value or a value in [1000, 2000] (10_state.md R22, R110 (b)). -/
def ChannelInRange (s : State) (k : Fin 8) : Prop :=
  s.ch[k] = Config.chReset[k] ∨ (1000 ≤ s.ch[k].toNat ∧ s.ch[k].toNat ≤ 2000)

/-- R110 (a): the index is 0 to 8; (b): every channel is in range; (c): available data means that the
index has moved. -/
structure Inv (s : State) : Prop where
  idxBound : s.idx.toNat ≤ 8
  channels : ∀ k : Fin 8, ChannelInRange s k
  captured : s.available = true → 1 ≤ s.idx.toNat

end Sys2Proof.Machine
end

