-- ==== Sys2Proof/Certificates/Slice0/Obligations.lean ====
section
/-! DEFINITION. The statements about the block, for the provers. Each docstring names the rule or the
spec section it formalises; where a rule is marked by the spec as its own decision or derivation, the
docstring says so and names the mark. -/

open Sys2Proof Sys2Proof.Machine

/-! ### Reset and the machine -/

/-- The registers after reset. The values are the spec's own decisions D2 to D5 with the parameters
`CH_RESET` and `LAST_EDGE_RESET` at their defaults (70_reset_and_hazards.md section 1; log 7). -/
def Obligations.ResetStateRegisters : Prop :=
  (∀ k : Fin 8, State.reset.ch[k].toNat = 1500) ∧ State.reset.idx = 0 ∧ State.reset.lastEdge = 0 ∧
    State.reset.available = false ∧ State.reset.failsafe = false

/-- The state after reset meets the invariants of 40_pulse_decoder.md section 5 (marked [derived] there). -/
def Obligations.ResetStateMeetsInvariant : Prop := Inv State.reset

/-- Every step keeps the invariants (a), (b), (c) of 40_pulse_decoder.md section 5 ([derived] there; the reset
value of a channel is log 7). -/
def Obligations.StepKeepsInvariant : Prop :=
  ∀ s t : State, Inv s → step s = .next t → Inv t

/-- A step takes the first request off the trace and performs the operation it decodes to (00_scope.md
section 5, traces; the trace as a field is the model's, log 1). -/
def Obligations.StepRunsDecodedOperation : Prop :=
  ∀ (s : State) (r : Request) (rest : List Request) (i : Instr),
    s.trace = r :: rest → decode r = .ok i → step s = exec i { s with trace := rest }

/-- With nothing requested no operation occurs (70_reset_and_hazards.md section 3, silent signal loss,
[derived] there; log 1). -/
def Obligations.StepIdlesWithoutRequest : Prop :=
  ∀ s : State, s.trace = [] → step s = .next s

/-- A step stops only by one of these names, and then only where the name's condition holds: a request that is
no operation (log 2), `DECODE` with len > 8 (30_encoding.md section 4 (a), decision D15; log 11), and an `EDGE`
case named where another is selected (log 3). The conditions are necessary ones: that the stop does occur there
is DecodeRefusesLongFrames and EdgeIsExactlyOneCase. That EDGE.CHAN is not refused at the width 12000 is
decision D6 (log 8, DESIGN CHOICE, unsafe). -/
def Obligations.StepStopsOnlyByName : Prop :=
  ∀ (s : State) (q : Refusal), step s = .refused q →
    ∃ r rest, s.trace = r :: rest ∧
      ((∃ e, decode r = .error e ∧ q = .notAnOperation e) ∨
       (∃ rx p, decode r = .ok (.decode rx p) ∧ 8 < rx.len.toNat ∧ q = .lengthAboveEight) ∨
       (∃ now, decode r = .ok (.edgeSync now) ∧ ¬ SyncWidth (now - s.lastEdge) ∧
          q = .caseNotSelected "EDGE.SYNC") ∨
       (∃ now, decode r = .ok (.edgeLost now) ∧ ¬ LostWidth (now - s.lastEdge) ∧
          q = .caseNotSelected "EDGE.LOST") ∨
       (∃ now, decode r = .ok (.edgeChan now) ∧ ¬ ChanWidth (now - s.lastEdge) ∧
          q = .caseNotSelected "EDGE.CHAN"))

/-! ### Encoding -/

/-- Decoding the request of a well-formed operation gives the operation back, for every operation and
every operand (30_encoding.md section 1; the packing is the model's, log 2). -/
def Obligations.DecodeOfEncodeIsIdentity : Prop :=
  ∀ i : Instr, i.wellFormed = true → decode (encode i) = .ok i

/-- Whatever the decoder accepts is well formed and has exactly one spelling (the packing is the model's,
log 2). -/
def Obligations.EncodeOfDecodeIsIdentity : Prop :=
  ∀ (r : Request) (i : Instr), decode r = .ok i → i.wellFormed = true ∧ encode i = r

/-- Words written out from 30_encoding.md and 95_test_vectors.md decode to what they stand for: the `now`
of program P1 (section 3), the frame of vector V4 (section 1), the empty word of `RDSNAP`; which port such a
table word is given to is the model's choice, log 4. The fourth clause is the short frame of program P3
(section 3): its payload is the spec's, but its five metadata bytes are the model's packing of `RXMETA`, a
DESIGN CHOICE of log 2 that no table of the spec gives. -/
def Obligations.WordsOfTheSpecDecode : Prop :=
  decodeTableWord 32 0x000F4240 = some (.edge 1000000) ∧
  decodeTableWord 64 0x02FED42D06901E01 =
    some (.encode { driveMode := 2, throttle := BitVec.ofInt 16 (-300), steeringAngle := 45,
                    voltage := 1680, velocity := 30, acknowledged := 1 }) ∧
  decodeTableWord 0 0 = some .rdsnap ∧
  decode ⟨.decodePart, [0x00, 0x00, 0x00, 0x48, 0x84, 0x03, 0x07, 0x08, 0x90]⟩ =
    .ok (.decodePart { id := 0x12, ext := false, rtr := false, reqLen := 8, len := 4 }
          #v[0x03, 0x07, 0x08, 0x90])

/-- A table word placed as the next request is performed by the very next step (log 1, log 4). -/
def Obligations.TableWordIsPerformedNext : Prop :=
  ∀ (s : State) (nbits w : Nat) (i : Instr),
    decodeTableWord nbits w = some i → step (s.withFetchWord nbits w) = exec i s

/-! ### Edges -/

/-- `EDGE.SYNC`, 40_pulse_decoder.md R101: completion, result and frame, from `EDGE` and by its own name. -/
def Obligations.SyncEdgeRestartsFrame : Prop :=
  ∀ (s : State) (now : Stamp), SyncWidth (now - s.lastEdge) →
    ∃ t, exec (.edge now) s = .next t ∧ exec (.edgeSync now) s = .next t ∧
      t.idx = 0 ∧ t.failsafe = false ∧ t.available = false ∧ t.ch = s.ch ∧ t.lastEdge = now ∧
      ReturnsNothing s t

/-- `EDGE.LOST`, 40_pulse_decoder.md section 1: completion, result and frame (for a width above 12000; the
width 12000 itself is log 8). And a signal that stops causes no operation (70_reset_and_hazards.md section
3): that a step with an empty trace answers the same state is the model's DESIGN CHOICE, log 1. -/
def Obligations.LostEdgeAssertsFailsafe : Prop :=
  (∀ (s : State) (now : Stamp), LostWidth (now - s.lastEdge) →
    ∃ t, exec (.edge now) s = .next t ∧ exec (.edgeLost now) s = .next t ∧
      t.failsafe = true ∧ t.available = false ∧ t.idx = s.idx ∧ t.ch = s.ch ∧ t.lastEdge = now ∧
      ReturnsNothing s t) ∧
  (∀ s : State, s.trace = [] → step s = .next s)

/-- `EDGE.CHAN`, 40_pulse_decoder.md section 1: completion, both branches, and frame. Two clauses rest on
choices: the width 12000 is a channel width by decision D6 (log 8, DESIGN CHOICE, unsafe), and `AVAILABLE` is
kept at `IDX` = 8 by decision D7 (log 9, DESIGN CHOICE, unsafe). -/
def Obligations.ChannelEdgeCaptures : Prop :=
  ∀ (s : State) (now : Stamp), ChanWidth (now - s.lastEdge) →
    ∃ t, exec (.edge now) s = .next t ∧ exec (.edgeChan now) s = .next t ∧
      t.lastEdge = now ∧ t.failsafe = s.failsafe ∧ ReturnsNothing s t ∧
      (s.idx.toNat < 8 →
        t.idx.toNat = s.idx.toNat + 1 ∧ t.available = true ∧
        ∀ k : Fin 8, t.ch[k].toNat =
          if k.val = s.idx.toNat then storedMicros (now - s.lastEdge) else s.ch[k].toNat) ∧
      (8 ≤ s.idx.toNat → t.idx = s.idx ∧ t.available = s.available ∧ t.ch = s.ch)

/-- Exactly one case of `EDGE` applies (30_encoding.md section 3; the width 12000 by decision D6, log 8): the
operation named by it does what `EDGE` does, and the other two names are refused (log 3). -/
def Obligations.EdgeIsExactlyOneCase : Prop :=
  ∀ (s : State) (now : Stamp), ∃ t, exec (.edge now) s = .next t ∧
    ((exec (.edgeSync now) s = .next t ∧
      exec (.edgeLost now) s = .refused (.caseNotSelected "EDGE.LOST") ∧
      exec (.edgeChan now) s = .refused (.caseNotSelected "EDGE.CHAN")) ∨
     (exec (.edgeSync now) s = .refused (.caseNotSelected "EDGE.SYNC") ∧
      exec (.edgeLost now) s = .next t ∧
      exec (.edgeChan now) s = .refused (.caseNotSelected "EDGE.CHAN")) ∨
     (exec (.edgeSync now) s = .refused (.caseNotSelected "EDGE.SYNC") ∧
      exec (.edgeLost now) s = .refused (.caseNotSelected "EDGE.LOST") ∧
      exec (.edgeChan now) s = .next t))

/-- An edge `d` µs after the last one, the time base having wrapped any number of times, is the edge of
width `d mod 2^32` (40_pulse_decoder.md section 3, decision D1, log 10, PRESUMED; 30_encoding.md section 7
for `PULSE`). -/
def Obligations.WidthIsElapsedTimeModuloWrap : Prop :=
  ∀ (s : State) (d : Nat),
    (BitVec.ofNat 32 (s.lastEdge.toNat + d) - s.lastEdge).toNat = d % 2 ^ 32 ∧
    exec (.edge (BitVec.ofNat 32 (s.lastEdge.toNat + d))) s = exec (.pulse (BitVec.ofNat 32 d)) s

/-- `PULSE w` completes from every state; the case is selected by `w` alone, whatever `LAST_EDGE` was, and
the effect depends on `w`, on `IDX` and on what the registers held (30_encoding.md section 7, [derived]
there). The clause for the width 12000 is decision D6 (log 8, DESIGN CHOICE) and `AVAILABLE` kept at `IDX` = 8
is decision D7 (log 9, DESIGN CHOICE). -/
def Obligations.PulseSelectsByItsWidth : Prop :=
  ∀ (s : State) (w : Stamp),
    ∃ t, exec (.pulse w) s = .next t ∧ t.lastEdge = s.lastEdge + w ∧ ReturnsNothing s t ∧
      (SyncWidth w → t.idx = 0 ∧ t.available = false ∧ t.failsafe = false ∧ t.ch = s.ch) ∧
      (LostWidth w → t.idx = s.idx ∧ t.available = false ∧ t.failsafe = true ∧ t.ch = s.ch) ∧
      (ChanWidth w → t.failsafe = s.failsafe ∧
        (s.idx.toNat < 8 → t.idx.toNat = s.idx.toNat + 1 ∧ t.available = true ∧
          ∀ k : Fin 8, t.ch[k].toNat =
            if k.val = s.idx.toNat then storedMicros w else s.ch[k].toNat) ∧
        (8 ≤ s.idx.toNat → t.idx = s.idx ∧ t.available = s.available ∧ t.ch = s.ch))

/-- `TRAIN` completes from every state and is its pulses requested one after another (30_encoding.md
section 7, [derived] there; log 12). -/
def Obligations.TrainIsItsPulses : Prop :=
  ∀ (s : State) (g : Stamp) (ws : List Stamp) (rest : List Request),
    s.trace = (g :: ws).map (fun w => encode (.pulse w)) ++ rest →
    ∃ t, exec (.train g ws) { s with trace := rest } = .next t ∧
      t.trace = rest ∧ t.draws = s.draws ∧ t.result = none ∧
      Sys2Proof.core.run (ws.length + 1) s = .next t

/-- One pulse-train frame: after a synchronisation gap, `n` channel widths leave the first `min n 8`
registers with the clamped widths and every other as it was, from any state (40_pulse_decoder.md section
5, well-formed frame; 10_state.md section 7, partial frame; [derived] there; that 12000 is a channel width is
decision D6, log 8, DESIGN CHOICE). -/
def Obligations.TrainCapturesItsChannels : Prop :=
  ∀ (s : State) (g : Stamp) (ws : List Stamp), SyncWidth g → (∀ w ∈ ws, ChanWidth w) →
    ∃ t, exec (.train g ws) s = .next t ∧
      t.idx.toNat = min ws.length 8 ∧ t.failsafe = false ∧ t.available = decide (ws ≠ []) ∧
      t.lastEdge = ws.foldl (· + ·) (s.lastEdge + g) ∧ ReturnsNothing s t ∧
      ∀ k : Fin 8, t.ch[k].toNat =
        if h : k.val < ws.length then storedMicros ws[k.val] else s.ch[k].toNat

/-- The past that a frame of at least eight channel widths forgets is that of the channels, the index and the
flags: they come out independent of everything before it, `CH_RESET` and `LAST_EDGE_RESET` included. `LAST_EDGE`
does not: the widths of a train are relative to it, so it keeps its old value plus their sum, as
TrainCapturesItsChannels says (70_reset_and_hazards.md sections 1 and 2; that 12000 is a
channel width is decision D6, log 8, DESIGN CHOICE). -/
def Obligations.FullFrameForgetsThePast : Prop :=
  ∀ (s₁ s₂ t₁ t₂ : State) (g : Stamp) (ws : List Stamp), SyncWidth g → (∀ w ∈ ws, ChanWidth w) →
    8 ≤ ws.length → exec (.train g ws) s₁ = .next t₁ → exec (.train g ws) s₂ = .next t₂ →
    t₁.ch = t₂.ch ∧ t₁.idx = t₂.idx ∧ t₁.available = t₂.available ∧ t₁.failsafe = t₂.failsafe

/-- After a loss the index is not reset: the widths that follow are stored from the old index on, or
discarded when it is 8, with `FAILSAFE` still true; with a capture both flags are true
(70_reset_and_hazards.md section 3, both flags true and misaligned index). That `AVAILABLE` stays false when
the widths are discarded at `IDX` = 8 is decision D7 (log 9, DESIGN CHOICE, unsafe); that 12000 is a channel
width is decision D6 (log 8, DESIGN CHOICE, unsafe). -/
def Obligations.CaptureAfterLossIsMisaligned : Prop :=
  ∀ (s : State) (g : Stamp) (ws : List Stamp), LostWidth g → (∀ w ∈ ws, ChanWidth w) →
    s.idx.toNat ≤ 8 →
    ∃ t, exec (.train g ws) s = .next t ∧
      t.failsafe = true ∧ t.available = decide (ws ≠ [] ∧ s.idx.toNat < 8) ∧
      t.idx.toNat = min (s.idx.toNat + ws.length) 8 ∧ ReturnsNothing s t ∧
      ∀ k : Fin 8, t.ch[k].toNat =
        if h : s.idx.toNat ≤ k.val ∧ k.val - s.idx.toNat < ws.length
        then storedMicros ws[k.val - s.idx.toNat] else s.ch[k].toNat

/-- Available data was captured: if a run of edges ends with `AVAILABLE` true, one of them was a channel
width with the index in bounds, and only channel widths followed it (40_pulse_decoder.md section 5 (c),
[derived] there). That it was in bounds is decision D7 (log 9, DESIGN CHOICE); that 12000 is a channel width is
decision D6 (log 8, DESIGN CHOICE). -/
def Obligations.AvailableMeansCapturedSinceSync : Prop :=
  ∀ (s t : State) (g : Stamp) (ws : List Stamp), s.available = false →
    exec (.train g ws) s = .next t → t.available = true →
    ∃ (before after : List Stamp) (w : Stamp), g :: ws = before ++ w :: after ∧ ChanWidth w ∧
      (s.pulseEdges before).idx.toNat < 8 ∧ ∀ v ∈ after, ChanWidth v

/-! ### Who writes what -/

/-- The writers of the flags (10_state.md section 4): of all operations, only edges and `RESET` write
them, each as its case says. That a channel width at `IDX` = 8 leaves `AVAILABLE` as it was is decision D7
(log 9, DESIGN CHOICE, unsafe); that 12000 is a channel width is decision D6 (log 8, DESIGN CHOICE, unsafe). -/
def Obligations.FlagWriters : Prop :=
  ∀ (i : Instr) (s t : State), exec i s = .next t → (∀ g ws, i ≠ .train g ws) →
    match edgeWidthOf i s with
    | some w =>
      (SyncWidth w → t.available = false ∧ t.failsafe = false) ∧
      (LostWidth w → t.available = false ∧ t.failsafe = true) ∧
      (ChanWidth w → t.available = (s.available || decide (s.idx.toNat < 8)) ∧ t.failsafe = s.failsafe)
    | none =>
      (i = .reset → t.available = false ∧ t.failsafe = false) ∧
      (i ≠ .reset → t.available = s.available ∧ t.failsafe = s.failsafe)

/-- The writers of `CH`, `IDX` and `LAST_EDGE` (10_state.md sections 2, 3, 5): a channel register changes
only at `IDX` and only by a channel width; the index only goes to 0 or up by one; `LAST_EDGE` changes only
by an edge or `RESET`. That 12000 is a channel width is decision D6 (log 8, DESIGN CHOICE). -/
def Obligations.RegisterWriters : Prop :=
  ∀ (i : Instr) (s t : State), exec i s = .next t → i ≠ .reset → (∀ g ws, i ≠ .train g ws) →
    (∀ k : Fin 8, t.ch[k] ≠ s.ch[k] →
      k.val = s.idx.toNat ∧ 1000 ≤ t.ch[k].toNat ∧ t.ch[k].toNat ≤ 2000 ∧
      ∃ w, edgeWidthOf i s = some w ∧ ChanWidth w) ∧
    (t.idx = s.idx ∨
      (∃ w, edgeWidthOf i s = some w ∧
        ((SyncWidth w ∧ t.idx = 0) ∨
         (ChanWidth w ∧ s.idx.toNat < 8 ∧ t.idx.toNat = s.idx.toNat + 1)))) ∧
    t.lastEdge = (match edgeWidthOf i s with | some w => s.lastEdge + w | none => s.lastEdge)

/-- An operation started by a task writes no register of the decoder (20_memory.md section 6;
45_environment_boundary.md section 6). -/
def Obligations.TasksWriteNoRegister : Prop :=
  ∀ (i : Instr) (s t : State), i.agent = .controlTask ∨ i.agent = .receiveTask →
    exec i s = .next t → SameRegisters s t ∧ t.trace = s.trace

/-- The codec holds no state (10_state.md R30): its operations leave every register alone, and what they
answer is a function of the operands, the configuration constants and the draws. The condition that equally many
draws were taken in both states is the model's: a free value (41_telemetry_codec.md R144) is a constant at the
number of the draw (log 6, DESIGN CHOICE), and R30 knows no such counter. -/
def Obligations.CodecHoldsNoState : Prop :=
  ∀ (i : Instr) (s₁ s₂ : State), isCodecOp i = true → s₁.draws = s₂.draws →
    (∃ t₁ t₂, exec i s₁ = .next t₁ ∧ exec i s₂ = .next t₂ ∧ t₁.result = t₂.result ∧
      t₁.draws = t₂.draws ∧ SameRegisters s₁ t₁ ∧ SameRegisters s₂ t₂) ∨
    (∃ q, exec i s₁ = .refused q ∧ exec i s₂ = .refused q)

/-- Codec operations commute with edges: in either order the registers end the same and the codec answers
the same (20_memory.md section 7, decision D26). -/
def Obligations.CodecCommutesWithEdges : Prop :=
  ∀ (i j : Instr) (s t u : State), isCodecOp i = true → j.agent = .edgeAgent →
    exec i s = .next t → exec j t = .next u →
    ∃ t' u', exec j s = .next t' ∧ exec i t' = .next u' ∧ SameRegisters u u' ∧
      u'.draws = u.draws ∧ u'.result = t.result

/-- The decoder's future depends on its registers alone: from two states with equal registers every edge,
`RESET` and `RDSNAP` does and answers the same (10_state.md sections 1 and 7). -/
def Obligations.DecoderDependsOnRegistersOnly : Prop :=
  ∀ (i : Instr) (s₁ s₂ t₁ : State), isCodecOp i = false → SameRegisters s₁ s₂ →
    exec i s₁ = .next t₁ → ∃ t₂, exec i s₂ = .next t₂ ∧ SameRegisters t₁ t₂ ∧ t₁.result = t₂.result

/-! ### RDSNAP and RESET -/

/-- `RDSNAP` completes, returns the ten values and writes no register (40_pulse_decoder.md section 2,
decisions D8 and D9). -/
def Obligations.SnapshotReturnsTenValues : Prop :=
  ∀ s : State, ∃ t, exec .rdsnap s = .next t ∧
    t.result = some (.snapshot { ch := s.ch, available := s.available, failsafe := s.failsafe }) ∧
    SameRegisters s t ∧ t.trace = s.trace ∧ t.draws = s.draws

/-- Two snapshots are equal exactly when the channels and flags are: `IDX` and `LAST_EDGE` are hidden
(10_state.md section 7, [derived] there). -/
def Obligations.SnapshotHidesIndexAndTime : Prop :=
  ∀ s₁ s₂ t₁ t₂ : State, exec .rdsnap s₁ = .next t₁ → exec .rdsnap s₂ = .next t₂ →
    (t₁.result = t₂.result ↔
      s₁.ch = s₂.ch ∧ s₁.available = s₂.available ∧ s₁.failsafe = s₂.failsafe)

/-- `RESET` completes and restores the registers of the state after reset (70_reset_and_hazards.md section
1, decisions D2 to D5 and D25; log 7). -/
def Obligations.ResetRestoresRegisters : Prop :=
  ∀ s : State, ∃ t, exec .reset s = .next t ∧ SameRegisters State.reset t ∧
    (∀ k : Fin 8, t.ch[k].toNat = 1500) ∧ t.idx = 0 ∧ t.lastEdge = 0 ∧
    t.available = false ∧ t.failsafe = false ∧ ReturnsNothing s t

/-! ### ENCODE -/

/-- `ENCODE`, 41_telemetry_codec.md R132: completion, the eight bytes, the metadata and the frame of the
operation. `reqLen` is free. (The inference R132 marks as derived is the next statement.) -/
def Obligations.EncodeWritesTheFrame : Prop :=
  ∀ (f : Fields) (s : State), ∃ t p rx, exec (.encode f) s = .next t ∧
    t.result = some (.frame p rx) ∧
    p[0] = f.driveMode ∧
    p[1].toNat = f.throttle.toNat / 256 ∧ p[2].toNat = f.throttle.toNat % 256 ∧
    p[3] = f.steeringAngle ∧
    p[4].toNat = f.voltage.toNat / 256 ∧ p[5].toNat = f.voltage.toNat % 256 ∧
    p[6] = f.velocity ∧ p[7] = f.acknowledged ∧
    rx.id = Config.busId ∧ rx.ext = Config.busExt ∧ rx.rtr = false ∧ rx.len = 8 ∧
    SameRegisters s t ∧ t.trace = s.trace

/-- Every frame is the frame of exactly one choice of fields (41_telemetry_codec.md section 1, [derived]
there). -/
def Obligations.EncodeIsBijective : Prop :=
  ∀ (p : Payload) (s : State), ∃! f : Fields, ∃ t rx,
    exec (.encode f) s = .next t ∧ t.result = some (.frame p rx)

/-- The voltage asymmetry, 41_telemetry_codec.md sections 1 and 2: `ENCODE` writes the voltage as given and
`DECODE` divides by 100. Which way the quotient of a negative voltage is rounded is decision D16 (log 15,
PRESUMED, unsafe), and that the two bytes are read as two's complement is log 17 (PRESUMED). -/
def Obligations.VoltageIsScaledOnlyOnDecode : Prop :=
  (∀ (f : Fields) (s : State), ∃ t p rx, exec (.encode f) s = .next t ∧
    t.result = some (.frame p rx) ∧ bigEndian p[4] p[5] = f.voltage.toNat) ∧
  (∀ (rx : RxMeta) (p : Payload) (s : State), rx.rtr = false → rx.len = 8 →
    ∃ t rx' f, exec (.decode rx p) s = .next t ∧ t.result = some (.fields true rx' f) ∧
      f.voltage.toInt = (signedOf 16 (bigEndian p[4] p[5])).tdiv 100)

/-- Encode, then decode what was encoded, at any later state: the fields come back with the voltage
divided by 100 (41_telemetry_codec.md section 3, [derived] there; for a negative voltage decision D16, log
15, PRESUMED, and two's complement, log 17, PRESUMED). -/
def Obligations.DecodeOfEncodeDividesVoltage : Prop :=
  ∀ (f : Fields) (s : State), ∃ t p rx, exec (.encode f) s = .next t ∧
    t.result = some (.frame p rx) ∧
    ∀ s' : State, ∃ u rx' v, exec (.decode rx p) s' = .next u ∧ exec (.decodeFull rx p) s' = .next u ∧
      u.result = some (.fields true rx' { f with voltage := v }) ∧ v.toInt = f.voltage.toInt.tdiv 100

/-- Decode a full frame, then encode its fields: every byte but the two of the voltage comes back, and
those hold the quotient (41_telemetry_codec.md section 3, [derived] there; for a negative voltage decision
D16, log 15, PRESUMED, and two's complement, log 17, PRESUMED). -/
def Obligations.EncodeOfDecodeKeepsSixBytes : Prop :=
  ∀ (rx : RxMeta) (p : Payload) (s : State), rx.rtr = false → rx.len = 8 →
    ∃ t rx' f, exec (.decodeFull rx p) s = .next t ∧ t.result = some (.fields true rx' f) ∧
      ∃ u q rx'', exec (.encode f) t = .next u ∧ u.result = some (.frame q rx'') ∧
        (∀ k : Fin 8, k ≠ 4 → k ≠ 5 → q[k] = p[k]) ∧
        signedOf 16 (bigEndian q[4] q[5]) = (signedOf 16 (bigEndian p[4] p[5])).tdiv 100

/-! ### DECODE -/

/-- `DECODE` with len > 8 is refused, whatever else the metadata says (30_encoding.md section 4 (a),
decision D15; that it precedes the remote-request test is log 11). -/
def Obligations.DecodeRefusesLongFrames : Prop :=
  ∀ (rx : RxMeta) (p : Payload) (p₄ : Vector Byte 4) (s : State), 8 < rx.len.toNat →
    exec (.decode rx p) s = .refused .lengthAboveEight ∧
    exec (.decodeRtr rx) s = .refused .lengthAboveEight ∧
    exec (.decodeShort rx) s = .refused .lengthAboveEight ∧
    exec (.decodePart rx p₄) s = .refused .lengthAboveEight ∧
    exec (.decodeFull rx p) s = .refused .lengthAboveEight

/-- `DECODE` completes for every accepted length: the frame is reported as received with its metadata
passed through, and no register changes (41_telemetry_codec.md section 2, decisions D15, D18, D22). The length
that has no meaning is a draw (log 6, DESIGN CHOICE for its form). -/
def Obligations.DecodeReportsEveryFrame : Prop :=
  ∀ (rx : RxMeta) (p : Payload) (s : State), rx.len.toNat ≤ 8 →
    ∃ t rx' f, exec (.decode rx p) s = .next t ∧ t.result = some (.fields true rx' f) ∧
      rx'.id = rx.id ∧ rx'.ext = rx.ext ∧ rx'.rtr = rx.rtr ∧
      (rx.rtr = true → rx'.reqLen = rx.reqLen ∧ rx'.len = Config.draw 4 s.draws) ∧
      (rx.rtr = false → rx'.len = rx.len ∧ rx'.reqLen = Config.draw 4 s.draws) ∧
      SameRegisters s t ∧ t.trace = s.trace ∧ s.draws < t.draws

/-- Exactly one case of `DECODE` applies to accepted metadata (30_encoding.md section 3; that a frame of 4 to
7 bytes is read in its first four only is decision D13, log 16, DESIGN CHOICE): the operation named by it, given the bytes it reads, does what `DECODE` does, and the other names are
refused (log 3). -/
def Obligations.DecodeIsExactlyOneCase : Prop :=
  ∀ (rx : RxMeta) (p : Payload) (s : State), rx.len.toNat ≤ 8 →
    exec (.decodeRtr rx) s =
      (if rx.rtr then exec (.decode rx p) s else .refused (.caseNotSelected "DECODE.RTR")) ∧
    exec (.decodeShort rx) s =
      (if !rx.rtr && decide (rx.len.toNat < 4) then exec (.decode rx p) s
       else .refused (.caseNotSelected "DECODE.SHORT")) ∧
    exec (.decodePart rx #v[p[0], p[1], p[2], p[3]]) s =
      (if !rx.rtr && decide (4 ≤ rx.len.toNat ∧ rx.len.toNat ≤ 7) then exec (.decode rx p) s
       else .refused (.caseNotSelected "DECODE.PART")) ∧
    exec (.decodeFull rx p) s =
      (if !rx.rtr && decide (rx.len.toNat = 8) then exec (.decode rx p) s
       else .refused (.caseNotSelected "DECODE.FULL"))

/-- Bytes at offsets ≥ len are never read, and a remote-request or short frame is not read at all
(30_encoding.md section 5; 20_memory.md section 5). That a frame of 4 to 7 bytes is read in its first four
only is decision D13 (log 16, DESIGN CHOICE, unsafe), and that the payload is handed over as a buffer of eight
bytes is the model's (log 14, DESIGN CHOICE). -/
def Obligations.DecodeReadsNoAbsentByte : Prop :=
  ∀ (rx : RxMeta) (p q : Payload) (s : State),
    (rx.rtr = true ∨ rx.len.toNat < 4 ∨
      (rx.len.toNat < 8 ∧ p[0] = q[0] ∧ p[1] = q[1] ∧ p[2] = q[2] ∧ p[3] = q[3])) →
    exec (.decode rx p) s = exec (.decode rx q) s

/-- `DECODE.RTR` completes with the requested length, and its six fields are fresh draws, not a value the
model chose, kept or read (41_telemetry_codec.md section 2, decisions D14 and D30). That a
draw is `Config.draw` at the number of the draw is the model's form of it (log 6, DESIGN CHOICE). -/
def Obligations.RemoteRequestYieldsNoFields : Prop :=
  ∀ (rx : RxMeta) (s : State), rx.rtr = true → rx.len.toNat ≤ 8 →
    ∃ t rx' f, exec (.decodeRtr rx) s = .next t ∧ t.result = some (.fields true rx' f) ∧
      FieldsAreDraws (s.draws + 1) f ∧
      rx'.id = rx.id ∧ rx'.ext = rx.ext ∧ rx'.rtr = true ∧ rx'.reqLen = rx.reqLen ∧
      rx'.len = Config.draw 4 s.draws ∧ t.draws = s.draws + 7 ∧
      SameRegisters s t ∧ t.trace = s.trace

/-- `DECODE.SHORT` completes with the length, and its six fields are fresh draws (41_telemetry_codec.md section 2,
decision D14; the form of a draw: log 6, DESIGN CHOICE). -/
def Obligations.ShortFrameYieldsNoFields : Prop :=
  ∀ (rx : RxMeta) (s : State), rx.rtr = false → rx.len.toNat < 4 →
    ∃ t rx' f, exec (.decodeShort rx) s = .next t ∧ t.result = some (.fields true rx' f) ∧
      FieldsAreDraws (s.draws + 1) f ∧
      rx'.id = rx.id ∧ rx'.ext = rx.ext ∧ rx'.rtr = false ∧ rx'.len = rx.len ∧
      rx'.reqLen = Config.draw 4 s.draws ∧ t.draws = s.draws + 7 ∧
      SameRegisters s t ∧ t.trace = s.trace

/-- `DECODE.PART` completes with the three fields of the first four bytes; the other three are fresh draws, also
where their bytes are present (the form of a draw: log 6, DESIGN CHOICE)
(41_telemetry_codec.md section 2, decisions D13 and D14; which fields are read is log 16, DESIGN CHOICE, and
two's complement is log 17, PRESUMED). -/
def Obligations.PartialFrameYieldsThreeFields : Prop :=
  ∀ (rx : RxMeta) (p : Vector Byte 4) (s : State), rx.rtr = false → 4 ≤ rx.len.toNat →
    rx.len.toNat ≤ 7 →
    ∃ t rx' f, exec (.decodePart rx p) s = .next t ∧ t.result = some (.fields true rx' f) ∧
      f.driveMode.toInt = signedOf 8 p[0].toNat ∧
      f.throttle.toInt = signedOf 16 (bigEndian p[1] p[2]) ∧
      f.steeringAngle.toNat = p[3].toNat ∧
      f.voltage = Config.draw 16 (s.draws + 1) ∧ f.velocity = Config.draw 8 (s.draws + 2) ∧
      f.acknowledged = Config.draw 8 (s.draws + 3) ∧
      rx'.id = rx.id ∧ rx'.ext = rx.ext ∧ rx'.rtr = false ∧ rx'.len = rx.len ∧
      rx'.reqLen = Config.draw 4 s.draws ∧ t.draws = s.draws + 4 ∧
      SameRegisters s t ∧ t.trace = s.trace

/-- `DECODE.FULL`, 41_telemetry_codec.md section 2: completion and the six fields. Which way the quotient of a
negative voltage is rounded is decision D16 (log 15, PRESUMED, unsafe), and that the signed bytes are two's
complement is log 17 (PRESUMED, unsafe). `reqLen` is a draw (log 6, DESIGN CHOICE for its form). -/
def Obligations.FullFrameYieldsSixFields : Prop :=
  ∀ (rx : RxMeta) (p : Payload) (s : State), rx.rtr = false → rx.len = 8 →
    ∃ t rx' f, exec (.decodeFull rx p) s = .next t ∧ t.result = some (.fields true rx' f) ∧
      f.driveMode.toInt = signedOf 8 p[0].toNat ∧
      f.throttle.toInt = signedOf 16 (bigEndian p[1] p[2]) ∧
      f.steeringAngle.toNat = p[3].toNat ∧
      f.voltage.toInt = (signedOf 16 (bigEndian p[4] p[5])).tdiv 100 ∧
      f.velocity.toInt = signedOf 8 p[6].toNat ∧
      f.acknowledged.toInt = signedOf 8 p[7].toNat ∧
      rx'.id = rx.id ∧ rx'.ext = rx.ext ∧ rx'.rtr = false ∧ rx'.len = 8 ∧
      rx'.reqLen = Config.draw 4 s.draws ∧ t.draws = s.draws + 1 ∧
      SameRegisters s t ∧ t.trace = s.trace

/-- The exposed voltage lies in −327 to 327, and every raw value from −99 to 99 gives 0
(41_telemetry_codec.md section 2, decision D16; the rounding of negative quotients is log 15, PRESUMED, and
two's complement is log 17, PRESUMED). -/
def Obligations.DecodedVoltageRange : Prop :=
  ∀ (rx rx' : RxMeta) (p : Payload) (s t : State) (f : Fields), rx.rtr = false → rx.len = 8 →
    exec (.decode rx p) s = .next t → t.result = some (.fields true rx' f) →
    -327 ≤ f.voltage.toInt ∧ f.voltage.toInt ≤ 327 ∧
    (-99 ≤ signedOf 16 (bigEndian p[4] p[5]) → signedOf 16 (bigEndian p[4] p[5]) ≤ 99 →
      f.voltage.toInt = 0)

/-! ### The callers at the boundary (outside the block) -/

/-- The front end answers the neutral pair whenever the block shows no available data, in particular right
after `RESET`, a synchronisation width or a lost signal, at whatever read `k` (45_environment_boundary.md section 2;
the front end as a function is the model's, log 19, DESIGN CHOICE). -/
def Obligations.FrontEndIsNeutralWithoutData : Prop :=
  (∀ (k : Nat) (s : State), s.available = false → frontEnd k s.snapshot = { throttle := 1500, steeringAngle := 90 }) ∧
  (∀ (k : Nat) (s t : State), exec .reset s = .next t → frontEnd k t.snapshot = .neutral) ∧
  (∀ (k : Nat) (w : Stamp) (s t : State), SyncWidth w ∨ LostWidth w → exec (.pulse w) s = .next t →
    frontEnd k t.snapshot = .neutral)

/-- The receive loop writes mode and cache only from frames whose fields may be used: a remote-request or
short frame changes nothing, and a usable frame with `driveMode` 3 selects `RADIO_COMMAND`
(45_environment_boundary.md section 3; the loop as a function is the model's, log 19, and the cached throttle
as a 16-bit pattern is log 24, both DESIGN CHOICE). That a frame of 4 to 7 bytes carries mode, throttle and
steering in bytes 0 to 3 is decision D13 (log 16, DESIGN CHOICE, unsafe). -/
def Obligations.ReceiveLoopGatesOnMetadata : Prop :=
  ∀ (rx : RxMeta) (p : Payload) (s t : State) (rx' : RxMeta) (f : Fields) (a : Arbiter),
    exec (.decode rx p) s = .next t → t.result = some (.fields true rx' f) →
    ((rx.rtr = true ∨ rx.len.toNat < 4) → a.receive rx' f = some a) ∧
    (rx.rtr = false → 4 ≤ rx.len.toNat → p[0] = 3 →
      ∃ b, a.receive rx' f = some b ∧ b.mode = .radioCommand ∧
        b.cache.throttle.toNat = bigEndian p[1] p[2] ∧ b.cache.steeringAngle = p[3])

/-! ### The free value of ENCODE -/

/-- `reqLen`, which has no meaning in an encoded frame, is a fresh draw
(41_telemetry_codec.md section 1; the form of a draw: log 6, DESIGN CHOICE). -/
def Obligations.EncodeDrawsRequestedLength : Prop :=
  ∀ (f : Fields) (s : State), ∃ t p rx, exec (.encode f) s = .next t ∧
    t.result = some (.frame p rx) ∧ rx.reqLen = Config.draw 4 s.draws ∧ t.draws = s.draws + 1
end

