-- ==== Sys2Proof/Laws/Bytes.lean ====
section
/-! SUPPORT. The byte order of operands: each split and join as arithmetic on numbers, and splitting a
word and joining its bytes the identity, both ways. -/

namespace Sys2Proof

/-! ### Two bytes -/

theorem pairWord_toNat (hi lo : Byte) : (pairWord hi lo).toNat = hi.toNat * 256 + lo.toNat := by
  rw [pairWord, BitVec.toNat_append, ← Nat.shiftLeft_add_eq_or_of_lt lo.isLt]
  omega

theorem hiByte_toNat (v : BitVec 16) : (hiByte v).toNat = v.toNat / 256 := by
  have := v.isLt
  rw [hiByte, BitVec.extractLsb'_toNat, Nat.shiftRight_eq_div_pow]; omega

theorem loByte_toNat (v : BitVec 16) : (loByte v).toNat = v.toNat % 256 := by
  rw [loByte, BitVec.extractLsb'_toNat, Nat.shiftRight_eq_div_pow]; omega

@[simp] theorem hiByte_pairWord (hi lo : Byte) : hiByte (pairWord hi lo) = hi := by
  have := hi.isLt; have := lo.isLt
  apply BitVec.eq_of_toNat_eq; rw [hiByte_toNat, pairWord_toNat]; omega

@[simp] theorem loByte_pairWord (hi lo : Byte) : loByte (pairWord hi lo) = lo := by
  have := hi.isLt; have := lo.isLt
  apply BitVec.eq_of_toNat_eq; rw [loByte_toNat, pairWord_toNat]; omega

@[simp] theorem pairWord_hiByte_loByte (v : BitVec 16) : pairWord (hiByte v) (loByte v) = v := by
  apply BitVec.eq_of_toNat_eq; rw [pairWord_toNat, hiByte_toNat, loByte_toNat]; omega

/-! ### Four bytes -/

theorem stampOfBytes_toNat (a b c d : Byte) :
    (stampOfBytes a b c d).toNat = ((a.toNat * 256 + b.toNat) * 256 + c.toNat) * 256 + d.toNat := by
  simp only [stampOfBytes]
  rw [BitVec.toNat_append, ← Nat.shiftLeft_add_eq_or_of_lt d.isLt, BitVec.toNat_append,
    ← Nat.shiftLeft_add_eq_or_of_lt c.isLt, BitVec.toNat_append, ← Nat.shiftLeft_add_eq_or_of_lt b.isLt]
  omega

/-- The byte of a word at bit `i`, as a number. -/
theorem extractByte_toNat {n : Nat} (v : BitVec n) (i : Nat) :
    (v.extractLsb' i 8).toNat = v.toNat / 2 ^ i % 256 := by
  rw [BitVec.extractLsb'_toNat, Nat.shiftRight_eq_div_pow]

@[simp] theorem stampOfBytes_stampBytes (v : Stamp) :
    stampOfBytes (v.extractLsb' 24 8) (v.extractLsb' 16 8) (v.extractLsb' 8 8) (v.extractLsb' 0 8) = v := by
  have := v.isLt
  apply BitVec.eq_of_toNat_eq
  simp only [stampOfBytes_toNat, extractByte_toNat]; omega

@[simp] theorem stampBytes_stampOfBytes (a b c d : Byte) : stampBytes (stampOfBytes a b c d) = [a, b, c, d] := by
  have := a.isLt; have := b.isLt; have := c.isLt; have := d.isLt
  simp only [stampBytes, List.cons.injEq, and_true]
  refine ⟨?_, ?_, ?_, ?_⟩ <;> apply BitVec.eq_of_toNat_eq <;>
    simp only [stampOfBytes_toNat, extractByte_toNat] <;> omega

/-! ### Sequences of 32-bit operands -/

theorem stampsOfBytes_stampBytes (v : Stamp) (rest : List Byte) :
    stampsOfBytes (stampBytes v ++ rest) = (stampsOfBytes rest).map (v :: ·) := by
  simp [stampBytes, stampsOfBytes]

/-! ### The metadata word -/

theorem metaOfBytes_toNat (a b c d e : Byte) : (metaOfBytes a b c d e).toNat =
    (((a.toNat * 256 + b.toNat) * 256 + c.toNat) * 256 + d.toNat) * 256 + e.toNat := by
  simp only [metaOfBytes]
  rw [BitVec.toNat_append, ← Nat.shiftLeft_add_eq_or_of_lt e.isLt, BitVec.toNat_append,
    ← Nat.shiftLeft_add_eq_or_of_lt d.isLt, BitVec.toNat_append, ← Nat.shiftLeft_add_eq_or_of_lt c.isLt,
    BitVec.toNat_append, ← Nat.shiftLeft_add_eq_or_of_lt b.isLt]
  omega

@[simp] theorem metaOfBytes_metaBytes (m : BitVec 40) :
    metaOfBytes (m.extractLsb' 32 8) (m.extractLsb' 24 8) (m.extractLsb' 16 8) (m.extractLsb' 8 8)
      (m.extractLsb' 0 8) = m := by
  have := m.isLt
  apply BitVec.eq_of_toNat_eq
  simp only [metaOfBytes_toNat, extractByte_toNat]; omega

@[simp] theorem metaBytes_metaOfBytes (a b c d e : Byte) :
    metaBytes (metaOfBytes a b c d e) = [a, b, c, d, e] := by
  have := a.isLt; have := b.isLt; have := c.isLt; have := d.isLt; have := e.isLt
  simp only [metaBytes, List.cons.injEq, and_true]
  refine ⟨?_, ?_, ?_, ?_, ?_⟩ <;> apply BitVec.eq_of_toNat_eq <;>
    simp only [metaOfBytes_toNat, extractByte_toNat] <;> omega

theorem RxMeta.word_toNat (rx : RxMeta) : rx.word.toNat =
    (((rx.id.toNat * 2 + rx.ext.toNat) * 2 + rx.rtr.toNat) * 16 + rx.reqLen.toNat) * 16 + rx.len.toNat := by
  simp only [RxMeta.word]
  rw [BitVec.toNat_append, ← Nat.shiftLeft_add_eq_or_of_lt rx.len.isLt, BitVec.toNat_append,
    ← Nat.shiftLeft_add_eq_or_of_lt rx.reqLen.isLt, BitVec.toNat_append,
    ← Nat.shiftLeft_add_eq_or_of_lt (BitVec.isLt _), BitVec.toNat_append,
    ← Nat.shiftLeft_add_eq_or_of_lt (BitVec.isLt _), BitVec.toNat_append]
  simp only [BitVec.toNat_ofBool, BitVec.toNat_ofNat, Nat.shiftLeft_eq]
  simp

/-- The unused bit of a metadata word the encoder writes is clear. -/
theorem RxMeta.word_getLsbD_reserved (rx : RxMeta) : rx.word.getLsbD 39 = false := by
  have h := rx.word_toNat
  have := rx.id.isLt; have := rx.reqLen.isLt; have := rx.len.isLt
  have := rx.ext.toNat_lt; have := rx.rtr.toNat_lt
  rw [BitVec.getLsbD, h]
  exact Nat.testBit_lt_two_pow (by omega)

@[simp] theorem RxMeta.word_getElem_reserved (rx : RxMeta) : rx.word[39] = false :=
  rx.word_getLsbD_reserved

theorem testBit_toNat_toNat (x i : Nat) : (x.testBit i).toNat = x / 2 ^ i % 2 := by
  rw [Nat.testBit_eq_decide_div_mod_eq]
  rcases Nat.mod_two_eq_zero_or_one (x / 2 ^ i) with h | h <;> simp [h]

theorem bool_eq_of_toNat_eq {a b : Bool} (h : a.toNat = b.toNat) : a = b := by
  cases a <;> cases b <;> simp_all

@[simp] theorem RxMeta.ofWord_word (rx : RxMeta) : RxMeta.ofWord rx.word = rx := by
  have h := rx.word_toNat
  have := rx.id.isLt; have := rx.reqLen.isLt; have := rx.len.isLt
  have := rx.ext.toNat_lt; have := rx.rtr.toNat_lt
  obtain ⟨id, ext, rtr, reqLen, len⟩ := rx
  simp only [RxMeta.ofWord, RxMeta.mk.injEq]
  refine ⟨?_, ?_, ?_, ?_, ?_⟩
  · apply BitVec.eq_of_toNat_eq
    rw [BitVec.extractLsb'_toNat, Nat.shiftRight_eq_div_pow, h]; simp only at *; omega
  · apply bool_eq_of_toNat_eq
    rw [BitVec.getLsbD, testBit_toNat_toNat, h]; simp only at *; omega
  · apply bool_eq_of_toNat_eq
    rw [BitVec.getLsbD, testBit_toNat_toNat, h]; simp only at *; omega
  · apply BitVec.eq_of_toNat_eq
    rw [BitVec.extractLsb'_toNat, Nat.shiftRight_eq_div_pow, h]; simp only at *; omega
  · apply BitVec.eq_of_toNat_eq
    rw [BitVec.extractLsb'_toNat, Nat.shiftRight_eq_div_pow, h]; simp only at *; omega

/-- Every metadata word with its unused bit clear is the word of the record it holds. -/
theorem RxMeta.word_ofWord (m : BitVec 40) (h : m.getLsbD 39 = false) : (RxMeta.ofWord m).word = m := by
  have hm : m.toNat < 2 ^ 39 := by
    have hlt := m.isLt
    have : (m.toNat.testBit 39).toNat = 0 := by rw [BitVec.getLsbD] at h; simp [h]
    rw [testBit_toNat_toNat] at this; omega
  apply BitVec.eq_of_toNat_eq
  rw [RxMeta.word_toNat]
  simp only [RxMeta.ofWord, BitVec.extractLsb'_toNat, Nat.shiftRight_eq_div_pow, BitVec.getLsbD,
    testBit_toNat_toNat]
  omega

/-! ### Well-formed cases -/

theorem wellFormed_decodeRtr {rx : RxMeta} :
    (Instr.decodeRtr rx).wellFormed = true ↔ rx.rtr = true ∧ rx.len.toNat ≤ 8 := by
  simp [Instr.wellFormed]

theorem wellFormed_decodeShort {rx : RxMeta} :
    (Instr.decodeShort rx).wellFormed = true ↔ rx.rtr = false ∧ rx.len.toNat < 4 := by
  simp [Instr.wellFormed]

theorem wellFormed_decodePart {rx : RxMeta} {p : PayloadHead} :
    (Instr.decodePart rx p).wellFormed = true ↔ rx.rtr = false ∧ 4 ≤ rx.len.toNat ∧ rx.len.toNat < 8 := by
  simp [Instr.wellFormed]

theorem wellFormed_decodeFull {rx : RxMeta} {p : Payload} :
    (Instr.decodeFull rx p).wellFormed = true ↔ rx.rtr = false ∧ rx.len.toNat = 8 := by
  simp [Instr.wellFormed]

end Sys2Proof
end

