-- ==== Sys2Proof/Laws/State.lean ====
section
/-! SUPPORT. One lemma per field per update of the state, so that no proof unfolds a record update. -/

namespace Sys2Proof.Machine.State

@[simp] theorem stamp_ch (s : State) (now : Stamp) : (s.stamp now).ch = s.ch := rfl
@[simp] theorem stamp_idx (s : State) (now : Stamp) : (s.stamp now).idx = s.idx := rfl
@[simp] theorem stamp_lastEdge (s : State) (now : Stamp) : (s.stamp now).lastEdge = now := rfl
@[simp] theorem stamp_available (s : State) (now : Stamp) : (s.stamp now).available = s.available := rfl
@[simp] theorem stamp_failsafe (s : State) (now : Stamp) : (s.stamp now).failsafe = s.failsafe := rfl
@[simp] theorem stamp_trace (s : State) (now : Stamp) : (s.stamp now).trace = s.trace := rfl
@[simp] theorem stamp_result (s : State) (now : Stamp) : (s.stamp now).result = s.result := rfl
@[simp] theorem stamp_draws (s : State) (now : Stamp) : (s.stamp now).draws = s.draws := rfl

@[simp] theorem setIdx_ch (s : State) (i : Index) : (s.setIdx i).ch = s.ch := rfl
@[simp] theorem setIdx_idx (s : State) (i : Index) : (s.setIdx i).idx = i := rfl
@[simp] theorem setIdx_lastEdge (s : State) (i : Index) : (s.setIdx i).lastEdge = s.lastEdge := rfl
@[simp] theorem setIdx_available (s : State) (i : Index) : (s.setIdx i).available = s.available := rfl
@[simp] theorem setIdx_failsafe (s : State) (i : Index) : (s.setIdx i).failsafe = s.failsafe := rfl
@[simp] theorem setIdx_trace (s : State) (i : Index) : (s.setIdx i).trace = s.trace := rfl
@[simp] theorem setIdx_result (s : State) (i : Index) : (s.setIdx i).result = s.result := rfl
@[simp] theorem setIdx_draws (s : State) (i : Index) : (s.setIdx i).draws = s.draws := rfl

@[simp] theorem answer_ch (s : State) (r : Option Result) : (s.answer r).ch = s.ch := rfl
@[simp] theorem answer_idx (s : State) (r : Option Result) : (s.answer r).idx = s.idx := rfl
@[simp] theorem answer_lastEdge (s : State) (r : Option Result) : (s.answer r).lastEdge = s.lastEdge := rfl
@[simp] theorem answer_available (s : State) (r : Option Result) : (s.answer r).available = s.available := rfl
@[simp] theorem answer_failsafe (s : State) (r : Option Result) : (s.answer r).failsafe = s.failsafe := rfl
@[simp] theorem answer_trace (s : State) (r : Option Result) : (s.answer r).trace = s.trace := rfl
@[simp] theorem answer_result (s : State) (r : Option Result) : (s.answer r).result = r := rfl
@[simp] theorem answer_draws (s : State) (r : Option Result) : (s.answer r).draws = s.draws := rfl

@[simp] theorem drawn_ch (s : State) (n : Nat) : (s.drawn n).ch = s.ch := rfl
@[simp] theorem drawn_idx (s : State) (n : Nat) : (s.drawn n).idx = s.idx := rfl
@[simp] theorem drawn_lastEdge (s : State) (n : Nat) : (s.drawn n).lastEdge = s.lastEdge := rfl
@[simp] theorem drawn_available (s : State) (n : Nat) : (s.drawn n).available = s.available := rfl
@[simp] theorem drawn_failsafe (s : State) (n : Nat) : (s.drawn n).failsafe = s.failsafe := rfl
@[simp] theorem drawn_trace (s : State) (n : Nat) : (s.drawn n).trace = s.trace := rfl
@[simp] theorem drawn_result (s : State) (n : Nat) : (s.drawn n).result = s.result := rfl
@[simp] theorem drawn_draws (s : State) (n : Nat) : (s.drawn n).draws = s.draws + n := rfl

@[simp] theorem flagsSync_ch (s : State) : (s.flagsSync).ch = s.ch := rfl
@[simp] theorem flagsSync_idx (s : State) : (s.flagsSync).idx = s.idx := rfl
@[simp] theorem flagsSync_lastEdge (s : State) : (s.flagsSync).lastEdge = s.lastEdge := rfl
@[simp] theorem flagsSync_available (s : State) : (s.flagsSync).available = false := rfl
@[simp] theorem flagsSync_failsafe (s : State) : (s.flagsSync).failsafe = false := rfl
@[simp] theorem flagsSync_trace (s : State) : (s.flagsSync).trace = s.trace := rfl
@[simp] theorem flagsSync_result (s : State) : (s.flagsSync).result = s.result := rfl
@[simp] theorem flagsSync_draws (s : State) : (s.flagsSync).draws = s.draws := rfl

@[simp] theorem flagsLost_ch (s : State) : (s.flagsLost).ch = s.ch := rfl
@[simp] theorem flagsLost_idx (s : State) : (s.flagsLost).idx = s.idx := rfl
@[simp] theorem flagsLost_lastEdge (s : State) : (s.flagsLost).lastEdge = s.lastEdge := rfl
@[simp] theorem flagsLost_available (s : State) : (s.flagsLost).available = false := rfl
@[simp] theorem flagsLost_failsafe (s : State) : (s.flagsLost).failsafe = true := rfl
@[simp] theorem flagsLost_trace (s : State) : (s.flagsLost).trace = s.trace := rfl
@[simp] theorem flagsLost_result (s : State) : (s.flagsLost).result = s.result := rfl
@[simp] theorem flagsLost_draws (s : State) : (s.flagsLost).draws = s.draws := rfl

@[simp] theorem flagsCapture_ch (s : State) : (s.flagsCapture).ch = s.ch := rfl
@[simp] theorem flagsCapture_idx (s : State) : (s.flagsCapture).idx = s.idx := rfl
@[simp] theorem flagsCapture_lastEdge (s : State) : (s.flagsCapture).lastEdge = s.lastEdge := rfl
@[simp] theorem flagsCapture_available (s : State) : (s.flagsCapture).available = true := rfl
@[simp] theorem flagsCapture_failsafe (s : State) : (s.flagsCapture).failsafe = s.failsafe := rfl
@[simp] theorem flagsCapture_trace (s : State) : (s.flagsCapture).trace = s.trace := rfl
@[simp] theorem flagsCapture_result (s : State) : (s.flagsCapture).result = s.result := rfl
@[simp] theorem flagsCapture_draws (s : State) : (s.flagsCapture).draws = s.draws := rfl

@[simp] theorem flagsReset_ch (s : State) : (s.flagsReset).ch = s.ch := rfl
@[simp] theorem flagsReset_idx (s : State) : (s.flagsReset).idx = s.idx := rfl
@[simp] theorem flagsReset_lastEdge (s : State) : (s.flagsReset).lastEdge = s.lastEdge := rfl
@[simp] theorem flagsReset_available (s : State) : (s.flagsReset).available = false := rfl
@[simp] theorem flagsReset_failsafe (s : State) : (s.flagsReset).failsafe = false := rfl
@[simp] theorem flagsReset_trace (s : State) : (s.flagsReset).trace = s.trace := rfl
@[simp] theorem flagsReset_result (s : State) : (s.flagsReset).result = s.result := rfl
@[simp] theorem flagsReset_draws (s : State) : (s.flagsReset).draws = s.draws := rfl

@[simp] theorem resetDecoder_ch (s : State) (c : Channels) (l : Stamp) :
    (s.resetDecoder c l).ch = c := rfl
@[simp] theorem resetDecoder_idx (s : State) (c : Channels) (l : Stamp) :
    (s.resetDecoder c l).idx = 0 := rfl
@[simp] theorem resetDecoder_lastEdge (s : State) (c : Channels) (l : Stamp) :
    (s.resetDecoder c l).lastEdge = l := rfl
@[simp] theorem resetDecoder_available (s : State) (c : Channels) (l : Stamp) :
    (s.resetDecoder c l).available = false := rfl
@[simp] theorem resetDecoder_failsafe (s : State) (c : Channels) (l : Stamp) :
    (s.resetDecoder c l).failsafe = false := rfl
@[simp] theorem resetDecoder_trace (s : State) (c : Channels) (l : Stamp) :
    (s.resetDecoder c l).trace = s.trace := rfl
@[simp] theorem resetDecoder_result (s : State) (c : Channels) (l : Stamp) :
    (s.resetDecoder c l).result = s.result := rfl
@[simp] theorem resetDecoder_draws (s : State) (c : Channels) (l : Stamp) :
    (s.resetDecoder c l).draws = s.draws := rfl

@[simp] theorem storeAtIdx_idx (s : State) (v : Channel) : (s.storeAtIdx v).idx = s.idx := by
  unfold storeAtIdx; split <;> rfl
@[simp] theorem storeAtIdx_lastEdge (s : State) (v : Channel) : (s.storeAtIdx v).lastEdge = s.lastEdge := by
  unfold storeAtIdx; split <;> rfl
@[simp] theorem storeAtIdx_available (s : State) (v : Channel) : (s.storeAtIdx v).available = s.available := by
  unfold storeAtIdx; split <;> rfl
@[simp] theorem storeAtIdx_failsafe (s : State) (v : Channel) : (s.storeAtIdx v).failsafe = s.failsafe := by
  unfold storeAtIdx; split <;> rfl
@[simp] theorem storeAtIdx_trace (s : State) (v : Channel) : (s.storeAtIdx v).trace = s.trace := by
  unfold storeAtIdx; split <;> rfl
@[simp] theorem storeAtIdx_result (s : State) (v : Channel) : (s.storeAtIdx v).result = s.result := by
  unfold storeAtIdx; split <;> rfl
@[simp] theorem storeAtIdx_draws (s : State) (v : Channel) : (s.storeAtIdx v).draws = s.draws := by
  unfold storeAtIdx; split <;> rfl

/-- The register at `IDX` takes the value, every other keeps its own. -/
theorem storeAtIdx_ch (s : State) (v : Channel) (k : Fin 8) :
    (s.storeAtIdx v).ch[k] = if s.idx.toNat = k.val then v else s.ch[k] := by
  unfold storeAtIdx
  split
  · rename_i h; exact Vector.getElem_set h k.isLt
  · have : s.idx.toNat ≠ k.val := by simp at *; omega
    simp [this]

@[simp] theorem withTrace_ch (s : State) (t : List Request) :
    ({ s with trace := t } : State).ch = s.ch := rfl
@[simp] theorem withTrace_idx (s : State) (t : List Request) :
    ({ s with trace := t } : State).idx = s.idx := rfl
@[simp] theorem withTrace_lastEdge (s : State) (t : List Request) :
    ({ s with trace := t } : State).lastEdge = s.lastEdge := rfl
@[simp] theorem withTrace_available (s : State) (t : List Request) :
    ({ s with trace := t } : State).available = s.available := rfl
@[simp] theorem withTrace_failsafe (s : State) (t : List Request) :
    ({ s with trace := t } : State).failsafe = s.failsafe := rfl
@[simp] theorem withTrace_trace (s : State) (t : List Request) :
    ({ s with trace := t } : State).trace = t := rfl
@[simp] theorem withTrace_result (s : State) (t : List Request) :
    ({ s with trace := t } : State).result = s.result := rfl
@[simp] theorem withTrace_draws (s : State) (t : List Request) :
    ({ s with trace := t } : State).draws = s.draws := rfl

end Sys2Proof.Machine.State
end

