-- ==== Sys2Proof/Laws/Ops.lean ====
section
/-! SUPPORT. One lemma per shared operation that says what it can do, to be cited instead of unfolding. -/

namespace Sys2Proof.Machine

/-! ### Case selection -/

theorem edgeCase_eq_sync {w : Stamp} : edgeCase w = .sync ↔ 3000 < w.toNat ∧ w.toNat < 12000 := by
  unfold edgeCase; split_ifs <;> simp_all

theorem edgeCase_eq_lost {w : Stamp} : edgeCase w = .lost ↔ 12000 < w.toNat := by
  unfold edgeCase; split_ifs <;> simp_all
  omega

theorem edgeCase_eq_chan {w : Stamp} : edgeCase w = .chan ↔ w.toNat ≤ 3000 ∨ w.toNat = 12000 := by
  unfold edgeCase; split_ifs <;> simp_all <;> omega

theorem lengthRefused_eq_true {rx : RxMeta} : lengthRefused rx = true ↔ 8 < rx.len.toNat :=
  decide_eq_true_iff

theorem lengthRefused_eq_false {rx : RxMeta} : lengthRefused rx = false ↔ rx.len.toNat ≤ 8 :=
  decide_eq_false_iff_not.trans Nat.not_lt

theorem decodeCase_eq_rtr {rx : RxMeta} : decodeCase rx = .rtr ↔ rx.rtr = true := by
  unfold decodeCase; split_ifs <;> simp_all

theorem decodeCase_eq_short {rx : RxMeta} :
    decodeCase rx = .short ↔ rx.rtr = false ∧ rx.len.toNat < 4 := by
  unfold decodeCase; split_ifs <;> simp_all

theorem decodeCase_eq_part {rx : RxMeta} :
    decodeCase rx = .part ↔ rx.rtr = false ∧ 4 ≤ rx.len.toNat ∧ rx.len.toNat < 8 := by
  unfold decodeCase; split_ifs <;> simp_all

theorem decodeCase_eq_full {rx : RxMeta} :
    decodeCase rx = .full ↔ rx.rtr = false ∧ 8 ≤ rx.len.toNat := by
  unfold decodeCase; split_ifs <;> simp_all
  omega

/-! ### Width and clamp -/

/-- The width of an edge, as a number (R107). -/
theorem edgeWidth_toNat (s : State) (now : Stamp) :
    (s.edgeWidth now).toNat = (now.toNat + (2 ^ 32 - s.lastEdge.toNat)) % 2 ^ 32 := by
  rw [State.edgeWidth, BitVec.toNat_sub]; congr 1; omega

/-- An edge `w` after the last one has width `w`, whatever the last one was (R87). -/
@[simp] theorem edgeWidth_pulse (s : State) (w : Stamp) : s.edgeWidth (s.lastEdge + w) = w := by
  rw [State.edgeWidth, BitVec.add_comm, BitVec.add_sub_cancel]

theorem clamp_bounds {v lo hi : Nat} (h : lo ≤ hi) : lo ≤ clamp v lo hi ∧ clamp v lo hi ≤ hi := by
  unfold clamp; split_ifs <;> omega

/-- The stored value as a number: the clamp itself, nothing is lost in 16 bits (R105). -/
theorem channelValue_toNat (w : Stamp) : (channelValue w).toNat = clamp w.toNat 1000 2000 := by
  have := clamp_bounds (v := w.toNat) (lo := 1000) (hi := 2000) (by omega)
  simp [channelValue]; omega

theorem channelValue_bounds (w : Stamp) :
    1000 ≤ (channelValue w).toNat ∧ (channelValue w).toNat ≤ 2000 := by
  rw [channelValue_toNat]; exact clamp_bounds (by omega)

/-! ### The cases of an edge -/

theorem capture_inBounds {s : State} (w : Stamp) (h : s.idx.toNat < 8) :
    s.capture w = ((s.storeAtIdx (channelValue w)).setIdx (s.idx + 1)).flagsCapture := by
  rw [State.capture, if_pos (by simpa using h)]

theorem capture_outOfBounds {s : State} (w : Stamp) (h : ¬ s.idx.toNat < 8) : s.capture w = s := by
  rw [State.capture, if_neg (by simpa using h)]

/-- Everything `EDGE.CHAN`'s register part can do: it stores nothing, or it stores in bounds. -/
theorem capture_cases (s : State) (w : Stamp) :
    (¬ s.idx.toNat < 8 ∧ s.capture w = s) ∨
    (s.idx.toNat < 8 ∧ (s.capture w).idx = s.idx + 1 ∧ (s.capture w).idx.toNat = s.idx.toNat + 1 ∧
      (∀ k : Fin 8, (s.capture w).ch[k] = if s.idx.toNat = k.val then channelValue w else s.ch[k]) ∧
      (s.capture w).available = true ∧ (s.capture w).failsafe = s.failsafe) := by
  by_cases h : s.idx.toNat < 8
  · right
    rw [capture_inBounds w h]
    refine ⟨h, rfl, ?_, fun k => storeAtIdx_ch' s w k, rfl, by simp⟩
    simp [BitVec.toNat_add]; omega
  · exact .inl ⟨h, capture_outOfBounds w h⟩
where
  storeAtIdx_ch' (s : State) (w : Stamp) (k : Fin 8) :
      (((s.storeAtIdx (channelValue w)).setIdx (s.idx + 1)).flagsCapture).ch[k] =
        if s.idx.toNat = k.val then channelValue w else s.ch[k] := by
    simpa using State.storeAtIdx_ch s (channelValue w) k

@[simp] theorem capture_lastEdge (s : State) (w : Stamp) : (s.capture w).lastEdge = s.lastEdge := by
  unfold State.capture; split <;> simp

@[simp] theorem capture_trace (s : State) (w : Stamp) : (s.capture w).trace = s.trace := by
  unfold State.capture; split <;> simp

@[simp] theorem capture_draws (s : State) (w : Stamp) : (s.capture w).draws = s.draws := by
  unfold State.capture; split <;> simp

@[simp] theorem capture_failsafe (s : State) (w : Stamp) : (s.capture w).failsafe = s.failsafe := by
  unfold State.capture; split <;> simp

/-- `EDGE` is exactly one of its three cases (R79, R100). -/
theorem edge_cases (s : State) (now : Stamp) :
    (edgeCase (s.edgeWidth now) = .sync ∧ s.edge now = s.syncEdge now) ∨
    (edgeCase (s.edgeWidth now) = .lost ∧ s.edge now = s.lostEdge now) ∨
    (edgeCase (s.edgeWidth now) = .chan ∧ s.edge now = s.chanEdge now) := by
  unfold State.edge; split <;> simp_all

@[simp] theorem edge_lastEdge (s : State) (now : Stamp) : (s.edge now).lastEdge = now := by
  rcases edge_cases s now with ⟨-, h⟩ | ⟨-, h⟩ | ⟨-, h⟩ <;> rw [h] <;>
    simp [State.syncEdge, State.lostEdge, State.chanEdge]

@[simp] theorem edge_trace (s : State) (now : Stamp) : (s.edge now).trace = s.trace := by
  rcases edge_cases s now with ⟨-, h⟩ | ⟨-, h⟩ | ⟨-, h⟩ <;> rw [h] <;>
    simp [State.syncEdge, State.lostEdge, State.chanEdge]

@[simp] theorem edge_draws (s : State) (now : Stamp) : (s.edge now).draws = s.draws := by
  rcases edge_cases s now with ⟨-, h⟩ | ⟨-, h⟩ | ⟨-, h⟩ <;> rw [h] <;>
    simp [State.syncEdge, State.lostEdge, State.chanEdge]

@[simp] theorem edge_result (s : State) (now : Stamp) : (s.edge now).result = none := by
  rcases edge_cases s now with ⟨-, h⟩ | ⟨-, h⟩ | ⟨-, h⟩ <;> rw [h] <;>
    simp [State.syncEdge, State.lostEdge, State.chanEdge]

theorem pulseEdges_append (s : State) (xs ys : List Stamp) :
    s.pulseEdges (xs ++ ys) = (s.pulseEdges xs).pulseEdges ys := by
  induction xs generalizing s with
  | nil => rfl
  | cons w ws ih => exact ih _

/-! ### Case operations -/

/-- A case operation of `EDGE` completes exactly when its case is selected. -/
theorem inEdgeCase_next {s : State} {now : Stamp} {c : EdgeCase} {m : String} {t u : State}
    (h : inEdgeCase s now c m t = .next u) : edgeCase (s.edgeWidth now) = c ∧ u = t := by
  unfold inEdgeCase at h; split at h
  · cases h; exact ⟨‹_›, rfl⟩
  · cases h

/-- A case operation of `DECODE` completes exactly when its metadata is accepted and selects the case. -/
theorem inCase_next {rx : RxMeta} {c : DecodeCase} {m : String} {t u : State}
    (h : inCase rx c m t = .next u) : rx.len.toNat ≤ 8 ∧ decodeCase rx = c ∧ u = t := by
  unfold inCase at h; split_ifs at h with h1 h2
  cases h
  exact ⟨lengthRefused_eq_false.mp (by simpa using h1), h2, rfl⟩

/-! ### The payload buffer -/

/-- `ENCODE`'s bytes are the six writes of R132, whatever the buffer held. -/
theorem framePayload_eq_writes (f : Fields) (p : Payload) :
    framePayload f =
      memWrite1 (memWrite1 (memWrite2 (memWrite1 (memWrite2 (memWrite1 p 0 f.driveMode)
        1 f.throttle) 3 f.steeringAngle) 4 f.voltage) 6 f.velocity) 7 f.acknowledged := by
  apply Vector.ext
  intro i hi
  simp only [framePayload, memWrite1, memWrite2, Vector.getElem_set]
  interval_cases i <;> simp

/-- A two-byte read after a two-byte write at the same offset gives the value written. -/
theorem memRead2_memWrite2 (p : Payload) (k : Nat) (v : BitVec 16) (h : k + 1 < Config.frameLen) :
    memRead2 (memWrite2 p k v h) k h = v := by
  simp [memRead2, memWrite2]

/-- Division by 100 truncating toward zero, in terms of the floor of a non-negative number. -/
theorem tdiv_hundred (r : Int) :
    (0 ≤ r ∧ r.tdiv 100 = r / 100) ∨ (r < 0 ∧ r.tdiv 100 = -((-r) / 100)) := by
  rcases Int.lt_or_le r 0 with h | h
  · right
    refine ⟨h, ?_⟩
    rw [← Int.tdiv_eq_ediv_of_nonneg (by omega), Int.neg_tdiv, neg_neg]
  · exact .inl ⟨h, Int.tdiv_eq_ediv_of_nonneg h⟩

/-- The exposed voltage is the truncated quotient, exactly (R143). -/
theorem scaledVoltage_toInt (v : I16) : (scaledVoltage v).toInt = v.toInt.tdiv 100 := by
  have h1 := v.toInt_lt; have h2 := v.le_toInt
  simp only [scaledVoltage, Config.voltDiv, BitVec.toInt_ofInt]
  have := tdiv_hundred v.toInt
  apply Int.bmod_eq_of_le <;> simp at * <;> omega

end Sys2Proof.Machine
end

