-- ==== Sys2Proof/Laws/PerInstr.lean ====
section
/-! SUPPORT. Per-operation families. `OperandBytes`: the request an operation is written as has the
number of operand bytes its format has (30_encoding.md R70; the packing: log 2). -/

namespace Sys2Proof.Laws.OperandBytes

/-- How many operand bytes an operation has: `TS` 4, `NONE` 0, `FIELDS` 8, `RXMETA` 5, and the payload
bytes its row lists. -/
def size : Instr → Nat
  | .edge _ => 4
  | .edgeSync _ => 4
  | .edgeLost _ => 4
  | .edgeChan _ => 4
  | .rdsnap => 0
  | .reset => 0
  | .encode _ => 8
  | .decode _ _ => 13
  | .decodeRtr _ => 5
  | .decodeShort _ => 5
  | .decodePart _ _ => 9
  | .decodeFull _ _ => 13
  | .pulse _ => 4
  | .train _ ws => 4 * (ws.length + 1)

def Statement (i : Instr) : Prop := (Sys2Proof.encode i).operand.length = size i

theorem edge (now : Stamp) : Statement (.edge now) := rfl
theorem edgeSync (now : Stamp) : Statement (.edgeSync now) := rfl
theorem edgeLost (now : Stamp) : Statement (.edgeLost now) := rfl
theorem edgeChan (now : Stamp) : Statement (.edgeChan now) := rfl
theorem rdsnap : Statement .rdsnap := rfl
theorem reset : Statement .reset := rfl
theorem encode (f : Fields) : Statement (.encode f) := rfl
theorem decode (rx : RxMeta) (p : Payload) : Statement (.decode rx p) := by
  simp [Statement, Sys2Proof.encode, metaBytes, size]
theorem decodeRtr (rx : RxMeta) : Statement (.decodeRtr rx) := rfl
theorem decodeShort (rx : RxMeta) : Statement (.decodeShort rx) := rfl
theorem decodePart (rx : RxMeta) (p : PayloadHead) : Statement (.decodePart rx p) := by
  simp [Statement, Sys2Proof.encode, metaBytes, size]
theorem decodeFull (rx : RxMeta) (p : Payload) : Statement (.decodeFull rx p) := by
  simp [Statement, Sys2Proof.encode, metaBytes, size]
theorem pulse (w : Stamp) : Statement (.pulse w) := rfl
theorem train (g : Stamp) (ws : List Stamp) : Statement (.train g ws) := by
  have h : ∀ l : List Stamp, (l.flatMap stampBytes).length = 4 * l.length := by
    intro l
    induction l with
    | nil => rfl
    | cons w ws ih => simp only [List.flatMap_cons, List.length_append, ih, List.length_cons, stampBytes]
                      simp; omega
  exact h (g :: ws)

end Sys2Proof.Laws.OperandBytes
end

