-- ==== Sys2Proof/Laws/Step.lean ====
section
/-! SUPPORT. What one step can do, once and for all. -/

namespace Sys2Proof.Machine

/-- A step that answers a next state was idle, or performed the operation the first request decodes to. -/
theorem step_cases {s t : State} (h : step s = .next t) :
    (s.trace = [] ∧ t = s) ∨
    (∃ r rest i, s.trace = r :: rest ∧ decode r = .ok i ∧ exec i { s with trace := rest } = .next t) := by
  unfold step at h
  split at h
  · cases h; exact .inl ⟨‹_›, rfl⟩
  · split at h
    · exact .inr ⟨_, _, _, ‹_›, ‹_›, h⟩
    · cases h

/-- A step that is refused had a request, and either the request is no operation or the operation is
refused. -/
theorem step_refused {s : State} {q : Refusal} (h : step s = .refused q) :
    ∃ r rest, s.trace = r :: rest ∧
      ((∃ e, decode r = .error e ∧ q = .notAnOperation e) ∨
       (∃ i, decode r = .ok i ∧ exec i { s with trace := rest } = .refused q)) := by
  unfold step at h
  split at h
  · cases h
  · rename_i r rest hr
    refine ⟨r, rest, hr, ?_⟩
    split at h
    · exact .inr ⟨_, ‹_›, h⟩
    · cases h; exact .inl ⟨_, ‹_›, rfl⟩

end Sys2Proof.Machine
end

