-- ==== Sys2Proof/Tests/Slice0.lean ====
section
/-! SUPPORT. Tests. Expected values come from 95_test_vectors.md (V…, P…), from the encoding tables of
30_encoding.md, or by hand from the rules named. The witnesses at the end meet the hypotheses of the
statements of Certificates/Slice0/Obligations.lean. -/

namespace Sys2Proof.Tests

open Sys2Proof.Machine

/-! ### Helpers -/

/-- The next state, if there is one. -/
def after (o : Host.Outcome State Fault Refusal) : Option State :=
  match o with
  | .next s => some s
  | .fault _ => none
  | .refused _ => none

/-- Why an operation was refused, if it was. -/
def stop (o : Host.Outcome State Fault Refusal) : Option Refusal :=
  match o with
  | .next _ => none
  | .fault _ => none
  | .refused q => some q

/-- The registers, in the order of 95_test_vectors.md: `ch`, `idx`, `last`, `av`, `fs`. -/
def regs (s : State) : List Nat × Nat × Nat × Bool × Bool :=
  (s.ch.toList.map BitVec.toNat, s.idx.toNat, s.lastEdge.toNat, s.available, s.failsafe)

/-- The fields a `DECODE` returned. -/
def fieldsOf (o : Host.Outcome State Fault Refusal) : Option Fields :=
  match o with
  | .next s => match s.result with
    | some (.fields _ _ f) => some f
    | _ => none
  | _ => none

/-- The metadata a codec operation returned. -/
def rxOf (o : Host.Outcome State Fault Refusal) : Option RxMeta :=
  match o with
  | .next s => match s.result with
    | some (.fields _ rx _) => some rx
    | some (.frame _ rx) => some rx
    | _ => none
  | _ => none

/-- The bytes `ENCODE` returned. -/
def bytesOf (o : Host.Outcome State Fault Refusal) : Option (List Nat) :=
  match o with
  | .next s => match s.result with
    | some (.frame p _) => some (p.toList.map BitVec.toNat)
    | _ => none
  | _ => none

/-- The start state of vectors V2, V9 and V11, with the last edge at 100000. -/
def mid : State :=
  { State.reset with ch := #v[1100, 1200, 1300, 1400, 1500, 1600, 1700, 1800], idx := 2,
                     lastEdge := 100000, available := true }

/-- The same with a full frame captured. -/
def full : State := { mid with idx := 8 }

/-- Metadata of a data frame of `n` bytes, as in program P3. -/
def dataRx (n : Length) : RxMeta := { id := 0x12, ext := false, rtr := false, reqLen := 0, len := n }

/-- Metadata of a remote-request frame for 8 bytes (V23). -/
def remoteRx : RxMeta := { id := 0x123, ext := false, rtr := true, reqLen := 8, len := 0 }

/-- The frame of V4. -/
def frameV4 : Payload := #v[0x02, 0xFE, 0xD4, 0x2D, 0x06, 0x90, 0x1E, 0x01]

/-- The operands of V4. -/
def fieldsV4 : Fields :=
  { driveMode := 2, throttle := BitVec.ofInt 16 (-300), steeringAngle := 45, voltage := 1680,
    velocity := 30, acknowledged := 1 }

/-! ### WellFormed: an ill-formed term for each check -/

theorem test_wellFormed_rtr_needs_flag : (Instr.decodeRtr (dataRx 0)).wellFormed = false := by decide
theorem test_wellFormed_rtr_needs_len : (Instr.decodeRtr { remoteRx with len := 9 }).wellFormed = false := by decide
theorem test_wellFormed_short_needs_no_flag : (Instr.decodeShort remoteRx).wellFormed = false := by decide
theorem test_wellFormed_short_needs_len : (Instr.decodeShort (dataRx 4)).wellFormed = false := by decide
theorem test_wellFormed_part_needs_no_flag :
    (Instr.decodePart { remoteRx with len := 5 } #v[0, 0, 0, 0]).wellFormed = false := by decide
theorem test_wellFormed_part_needs_four : (Instr.decodePart (dataRx 3) #v[0, 0, 0, 0]).wellFormed = false := by decide
theorem test_wellFormed_part_below_eight : (Instr.decodePart (dataRx 8) #v[0, 0, 0, 0]).wellFormed = false := by decide
theorem test_wellFormed_full_needs_no_flag : (Instr.decodeFull { remoteRx with len := 8 } frameV4).wellFormed = false := by decide
theorem test_wellFormed_full_needs_eight : (Instr.decodeFull (dataRx 7) frameV4).wellFormed = false := by decide

/-! ### Decode: one word per constructor, written out

`now` of program P1 is `0x000F4240`. The metadata words are written bit by bit: `id` 0x12, `ext` 0,
`rtr` 0, `reqLen` 0, `len` n is 0 ∥ 0…010010 ∥ 0 ∥ 0 ∥ 0000 ∥ nnnn, that is 00 00 00 48 0n; `id` 0x123,
`rtr` 1, `reqLen` 8, `len` 0 is 0 ∥ 0…0100100011 ∥ 0 ∥ 1 ∥ 1000 ∥ 0000, that is 00 00 04 8D 80. -/

theorem test_decode_edge : decode ⟨.edge, [0x00, 0x0F, 0x42, 0x40]⟩ = .ok (.edge 1000000) := by decide
theorem test_decode_edgeSync : decode ⟨.edgeSync, [0x00, 0x0F, 0x59, 0xB0]⟩ = .ok (.edgeSync 1006000) := by decide
theorem test_decode_edgeLost : decode ⟨.edgeLost, [0xFF, 0xFF, 0xE0, 0x00]⟩ = .ok (.edgeLost 4294959104) := by decide
theorem test_decode_edgeChan : decode ⟨.edgeChan, [0x00, 0x0F, 0x5F, 0x8C]⟩ = .ok (.edgeChan 1007500) := by decide
theorem test_decode_rdsnap : decode ⟨.rdsnap, []⟩ = .ok .rdsnap := by decide
theorem test_decode_reset : decode ⟨.reset, []⟩ = .ok .reset := by decide
theorem test_decode_encode : decode ⟨.encode, [0x02, 0xFE, 0xD4, 0x2D, 0x06, 0x90, 0x1E, 0x01]⟩ = .ok (.encode fieldsV4) := by decide
theorem test_decode_decode : decode ⟨.decode, [0x00, 0x00, 0x00, 0x48, 0x08, 0x02, 0xFE, 0xD4, 0x2D, 0x06, 0x90, 0x1E, 0x01]⟩ =
    .ok (.decode (dataRx 8) frameV4) := by decide
theorem test_decode_decodeRtr : decode ⟨.decodeRtr, [0x00, 0x00, 0x04, 0x8D, 0x80]⟩ = .ok (.decodeRtr remoteRx) := by decide
theorem test_decode_decodeShort : decode ⟨.decodeShort, [0x00, 0x00, 0x00, 0x48, 0x03]⟩ = .ok (.decodeShort (dataRx 3)) := by decide
theorem test_decode_decodePart : decode ⟨.decodePart, [0x00, 0x00, 0x00, 0x48, 0x04, 0x03, 0x07, 0x08, 0x90]⟩ =
    .ok (.decodePart (dataRx 4) #v[0x03, 0x07, 0x08, 0x90]) := by decide
theorem test_decode_decodeFull : decode ⟨.decodeFull, [0x00, 0x00, 0x00, 0x48, 0x08, 0x02, 0xFE, 0xD4, 0x2D, 0x06, 0x90, 0x1E, 0x01]⟩ =
    .ok (.decodeFull (dataRx 8) frameV4) := by decide
theorem test_decode_pulse : decode ⟨.pulse, [0x00, 0x00, 0x17, 0x70]⟩ = .ok (.pulse 6000) := by decide
theorem test_decode_train : decode ⟨.train, [0x00, 0x00, 0x17, 0x70, 0x00, 0x00, 0x05, 0xDC, 0x00, 0x00, 0x04, 0xB0]⟩ =
    .ok (.train 6000 [1500, 1200]) := by decide

/-- The widest identifier with the extended flag (V26): 0 ∥ 29 ones ∥ 1 ∥ 0 ∥ 0000 ∥ 1000. -/
theorem test_decode_extended_id : decode ⟨.decode, [0x7F, 0xFF, 0xFF, 0xFE, 0x08, 0x02, 0xFE, 0xD4, 0x2D, 0x06, 0x90, 0x1E, 0x01]⟩ =
    .ok (.decode { dataRx 8 with id := 0x1FFFFFFF, ext := true } frameV4) := by decide
theorem test_decode_refuses_short_stamp : decode ⟨.edge, [0x0F, 0x42, 0x40]⟩ = .error (.operandLength .edge) := by decide
theorem test_decode_refuses_reserved_bit : decode ⟨.decodeShort, [0x80, 0x00, 0x00, 0x48, 0x03]⟩ = .error (.reservedBit .decodeShort) := by decide
theorem test_decode_refuses_other_case : decode ⟨.decodeShort, [0x00, 0x00, 0x00, 0x48, 0x04]⟩ = .error (.caseNotSelected .decodeShort) := by decide
theorem test_table_word_edge : decodeTableWord 32 0x000F4240 = some (.edge 1000000) := by decide
/-- R70: no format has 25, 31, 33 or 48 bits. -/
theorem test_table_word_other_width :
    [25, 31, 33, 48].map (fun n => (decodeTableWord n 0).isNone) = [true, true, true, true] := by decide

/-! ### The PulseDecoder -/

/-- V11, row 1500: the case CHAN. -/
theorem test_edge_chan : (after (exec (.edge 101500) mid)).map regs =
    some ([1100, 1200, 1500, 1400, 1500, 1600, 1700, 1800], 3, 101500, true, false) := by decide
/-- V14: the time base has wrapped. -/
theorem test_edge_wrap : (after (exec (.edge 0x000004DC) { State.reset with lastEdge := 0xFFFFFF00 })).map regs =
    some ([1500, 1500, 1500, 1500, 1500, 1500, 1500, 1500], 1, 0x4DC, true, false) := by decide
/-- V11, row 11999. -/
theorem test_edgeSync : (after (exec (.edgeSync 111999) mid)).map regs =
    some ([1100, 1200, 1300, 1400, 1500, 1600, 1700, 1800], 0, 111999, false, false) := by decide
/-- V9: 12000 is no synchronisation width. -/
theorem test_edgeSync_not_12000 : stop (exec (.edgeSync 112000) mid) = some (.caseNotSelected "EDGE.SYNC") := by decide
/-- V2: 12001. -/
theorem test_edgeLost : (after (exec (.edgeLost 112001) mid)).map regs =
    some ([1100, 1200, 1300, 1400, 1500, 1600, 1700, 1800], 2, 112001, false, true) := by decide
/-- V9: 12000 stores 2000. -/
theorem test_edgeChan_12000 : (after (exec (.edgeChan 112000) mid)).map regs =
    some ([1100, 1200, 2000, 1400, 1500, 1600, 1700, 1800], 3, 112000, true, false) := by decide
/-- V10: a ninth channel width is discarded. -/
theorem test_edgeChan_ninth : (after (exec (.edgeChan 101900) full)).map regs =
    some ([1100, 1200, 1300, 1400, 1500, 1600, 1700, 1800], 8, 101900, true, false) := by decide
/-- V16: the ten values, nothing changed. -/
theorem test_rdsnap : after (exec .rdsnap mid) =
    some { mid with result := some (.snapshot { ch := mid.ch, available := true, failsafe := false }) } := by decide
/-- R220, from any state. -/
theorem test_reset : (after (exec .reset full)).map regs =
    some ([1500, 1500, 1500, 1500, 1500, 1500, 1500, 1500], 0, 0, false, false) := by decide
/-- V13: a channel width after the loss of a full frame leaves the flag. -/
theorem test_pulse_after_loss : (after (exec (.pulse 1500) { full with available := false, failsafe := true })).map regs =
    some ([1100, 1200, 1300, 1400, 1500, 1600, 1700, 1800], 8, 101500, false, true) := by decide
/-- V11, row 0: a width of zero stores 1000. -/
theorem test_pulse_zero : (after (exec (.pulse 0) mid)).map regs =
    some ([1100, 1200, 1000, 1400, 1500, 1600, 1700, 1800], 3, 100000, true, false) := by decide
/-- V10, whole. -/
theorem test_train : (after (exec (.train 6000 [1100, 1200, 1300, 1400, 1500, 1600, 1700, 1800, 1900, 1950]) State.reset)).map regs =
    some ([1100, 1200, 1300, 1400, 1500, 1600, 1700, 1800], 8, 21450, true, false) := by decide

/-! ### The TelemetryCodec -/

/-- V4. -/
theorem test_encode : bytesOf (exec (.encode fieldsV4) mid) = some [0x02, 0xFE, 0xD4, 0x2D, 0x06, 0x90, 0x1E, 0x01] := by decide
/-- V19, row 6: every field negative or at its bound. -/
theorem test_encode_bounds : bytesOf (exec (.encode
      { driveMode := BitVec.ofInt 8 (-1), throttle := BitVec.ofInt 16 (-32768), steeringAngle := 255,
        voltage := BitVec.ofInt 16 (-32768), velocity := BitVec.ofInt 8 (-128),
        acknowledged := BitVec.ofInt 8 (-1) }) mid) =
    some [0xFF, 0x80, 0x00, 0xFF, 0x80, 0x00, 0x80, 0xFF] := by decide
/-- V4, back: the voltage is divided. -/
theorem test_decode_v4 : fieldsOf (exec (.decode (dataRx 8) frameV4) mid) = some { fieldsV4 with voltage := 16 } := by decide
/-- V25. -/
theorem test_decode_len_nine : stop (exec (.decode (dataRx 9) frameV4) mid) = some .lengthAboveEight := by decide
/-- V23: the requested length comes back; the fields are free. -/
theorem test_decodeRtr : (rxOf (exec (.decodeRtr remoteRx) mid)).map (fun rx => (rx.id, rx.rtr, rx.reqLen)) =
    some (0x123, true, 8) := by decide
/-- V21: the length comes back; the fields are free. -/
theorem test_decodeShort : (rxOf (exec (.decodeShort (dataRx 3)) mid)).map (fun rx => (rx.rtr, rx.len)) =
    some (false, 3) := by decide
/-- V22, third row. -/
theorem test_decodePart : (fieldsOf (exec (.decodePart (dataRx 7) #v[0xFF, 0x80, 0x00, 0xFF]) mid)).map
      (fun f => (f.driveMode.toInt, f.throttle.toInt, f.steeringAngle.toNat)) = some (-1, -32768, 255) := by decide
/-- V20, row 4: −150 quot 100 is −1. -/
theorem test_decodeFull : (fieldsOf (exec (.decodeFull (dataRx 8) #v[0x03, 0x04, 0xB0, 0x24, 0xFF, 0x6A, 0xFB, 0x00]) mid)).map
      (fun f => (f.driveMode.toInt, f.throttle.toInt, f.steeringAngle.toNat, f.voltage.toInt, f.velocity.toInt, f.acknowledged.toInt)) =
    some (3, 1200, 36, -1, -5, 0) := by decide
/-- V20, row 6: −32768 quot 100 is −327. -/
theorem test_decodeFull_minimum : (fieldsOf (exec (.decodeFull (dataRx 8) #v[0xFF, 0x80, 0x00, 0xFF, 0x80, 0x00, 0x80, 0xFF]) mid)).map
      (fun f => (f.voltage.toInt, f.velocity.toInt, f.acknowledged.toInt)) = some (-327, -128, -1) := by decide

/-! ### Steps, and the boundary -/

/-- P1, step 1: the first edge after reset is an ordinary edge. -/
theorem test_step_first_edge : (after (step (State.reset.withFetchWord 32 0x000F4240))).map regs =
    some ([1500, 1500, 1500, 1500, 1500, 1500, 1500, 1500], 0, 1000000, false, true) := by decide
/-- R231: without an edge nothing happens. -/
theorem test_step_idle : after (step mid) = some mid := by decide
theorem test_step_refuses_malformed : stop (step { mid with trace := [⟨.edge, []⟩] }) =
    some (.notAnOperation (.operandLength .edge)) := by decide
/-- P4: 1800 µs and 1200 µs are throttle 1800 and 36 degrees. -/
theorem test_frontEnd : frontEnd 0 { ch := #v[1800, 1200, 1500, 1500, 1500, 1500, 1500, 1500], available := true, failsafe := false } =
    { throttle := 1800, steeringAngle := 36 } := by decide
/-- V6: 91 normalizes to 90, 94 does not. -/
theorem test_actuator : actuatorAngle 91 = 90 ∧ actuatorAngle 94 = 94 := by decide
/-- V7: the arbiter's transition on `driveMode` 3. -/
theorem test_driveMode : driveModeOf 3 = some .radioCommand ∧ driveModeOf 4 = none := by decide

/-! ### Witnesses: states and operands that meet the hypotheses of the statements -/

/-- A state with one request placed: a synchronisation edge. -/
def placed : State := { mid with trace := [⟨.edge, [0x00, 0x01, 0x9E, 0x10]⟩] }

theorem mid_inv : Inv mid := ⟨by decide, fun k => .inr (by revert k; decide), by decide⟩

theorem witness_StepKeepsInvariant : Inv placed ∧ ∃ t, step placed = .next t ∧ t.idx = 0 :=
  ⟨⟨by decide, fun k => .inr (by revert k; decide), by decide⟩, _, rfl, by decide⟩
theorem witness_StepRunsDecodedOperation :
    placed.trace = ⟨.edge, [0x00, 0x01, 0x9E, 0x10]⟩ :: [] ∧
      decode ⟨.edge, [0x00, 0x01, 0x9E, 0x10]⟩ = .ok (.edge 106000) := by decide
theorem witness_StepIdlesWithoutRequest : mid.trace = [] := rfl
theorem witness_StepStopsOnlyByName :
    stop (step { mid with trace := [encode (.decode (dataRx 9) frameV4)] }) = some .lengthAboveEight ∧
    stop (step { mid with trace := [encode (.edgeSync 103000)] }) = some (.caseNotSelected "EDGE.SYNC") ∧
    stop (step { mid with trace := [encode (.edgeLost 112000)] }) = some (.caseNotSelected "EDGE.LOST") ∧
    stop (step { mid with trace := [encode (.edgeChan 103001)] }) = some (.caseNotSelected "EDGE.CHAN") := by decide
theorem witness_DecodeOfEncodeIsIdentity : (Instr.decodePart (dataRx 7) #v[1, 2, 3, 4]).wellFormed = true := by decide
theorem witness_EncodeOfDecodeIsIdentity : decode ⟨.train, [0, 0, 0, 7]⟩ = .ok (.train 7 []) := by decide
theorem witness_TableWordIsPerformedNext : decodeTableWord 64 0 = some (.encode ⟨0, 0, 0, 0, 0, 0⟩) := by decide
theorem witness_SyncEdgeRestartsFrame :
    SyncWidth ((103001 : Stamp) - mid.lastEdge) ∧ SyncWidth ((111999 : Stamp) - mid.lastEdge) := by decide
theorem witness_LostEdgeAssertsFailsafe :
    LostWidth ((112001 : Stamp) - mid.lastEdge) ∧ LostWidth ((99999 : Stamp) - mid.lastEdge) ∧ mid.trace = [] := by decide
theorem witness_ChannelEdgeCaptures :
    ChanWidth ((100000 : Stamp) - mid.lastEdge) ∧ ChanWidth ((103000 : Stamp) - mid.lastEdge) ∧
    ChanWidth ((112000 : Stamp) - mid.lastEdge) ∧ mid.idx.toNat < 8 ∧
    ({ mid with idx := 7 } : State).idx.toNat < 8 ∧ 8 ≤ full.idx.toNat := by decide
theorem witness_PulseSelectsByItsWidth :
    ChanWidth 0 ∧ ChanWidth 3000 ∧ SyncWidth 3001 ∧ SyncWidth 11999 ∧ ChanWidth 12000 ∧ LostWidth 12001 ∧
    LostWidth 4294967295 := by decide
theorem witness_TrainIsItsPulses :
    ({ mid with trace := [encode (.pulse 6000), encode (.pulse 1500), encode .rdsnap] } : State).trace =
      ((6000 : Stamp) :: [1500]).map (fun w => encode (.pulse w)) ++ [encode .rdsnap] := by decide
theorem witness_TrainCapturesItsChannels :
    SyncWidth 3001 ∧ ∀ w ∈ ([0, 1500, 3000, 12000] : List Stamp), ChanWidth w := by simp; decide
theorem witness_FullFrameForgetsThePast :
    SyncWidth 6000 ∧ (∀ w ∈ List.replicate 8 (1500 : Stamp), ChanWidth w) ∧
    8 ≤ (List.replicate 8 (1500 : Stamp)).length ∧
    (after (exec (.train 6000 (List.replicate 8 1500)) mid)).isSome = true ∧
    (after (exec (.train 6000 (List.replicate 8 1500)) State.reset)).isSome = true :=
  ⟨by decide, by simp; decide, by simp, rfl, rfl⟩
theorem witness_CaptureAfterLossIsMisaligned :
    LostWidth 12001 ∧ (∀ w ∈ ([1450, 1650] : List Stamp), ChanWidth w) ∧ mid.idx.toNat ≤ 8 ∧ full.idx.toNat ≤ 8 :=
  ⟨by decide, by simp; decide, by decide, by decide⟩
theorem witness_AvailableMeansCapturedSinceSync :
    State.reset.available = false ∧
    (after (exec (.train 20000 [1700]) State.reset)).map (·.available) = some true := by decide
theorem witness_FlagWriters :
    (after (exec (.edgeLost 112001) mid)).isSome = true ∧ (∀ g ws, Instr.edgeLost 112001 ≠ .train g ws) ∧
    (after (exec .rdsnap mid)).isSome = true ∧ (after (exec .reset mid)).isSome = true ∧
    edgeWidthOf (.edgeLost 112001) mid = some 12001 := by
  refine ⟨by decide, fun g ws => Instr.noConfusion, by decide, by decide, by decide⟩
/-- Its synchronisation clause, at both ends. -/
theorem witness_FlagWriters_sync :
    SyncWidth 3001 ∧ edgeWidthOf (.pulse 3001) mid = some 3001 ∧ (after (exec (.pulse 3001) mid)).isSome = true ∧
    SyncWidth 11999 ∧ edgeWidthOf (.pulse 11999) mid = some 11999 ∧
    (after (exec (.pulse 11999) mid)).isSome = true ∧ (∀ w g ws, Instr.pulse w ≠ .train g ws) := by
  refine ⟨by decide, rfl, by decide, by decide, rfl, by decide, fun w g ws => Instr.noConfusion⟩
/-- Its channel clause, in bounds and at `IDX` = 8 with `AVAILABLE` false. -/
theorem witness_FlagWriters_channel :
    ChanWidth 3000 ∧ ChanWidth 12000 ∧ mid.idx.toNat < 8 ∧ ¬ full.idx.toNat < 8 ∧
    edgeWidthOf (.pulse 12000) mid = some 12000 ∧ (after (exec (.pulse 3000) mid)).isSome = true ∧
    (after (exec (.pulse 12000) mid)).isSome = true ∧
    (after (exec (.pulse 3000) { full with available := false })).isSome = true := by
  refine ⟨by decide, by decide, by decide, by decide, rfl, by decide, by decide, by decide⟩
theorem witness_RegisterWriters :
    (after (exec (.edgeChan 101900) mid)).map (fun t => decide (t.ch[2] ≠ mid.ch[2])) = some true ∧
    Instr.edgeChan 101900 ≠ .reset ∧ (∀ g ws, Instr.edgeChan 101900 ≠ .train g ws) := by
  refine ⟨by decide, Instr.noConfusion, fun g ws => Instr.noConfusion⟩
theorem witness_TasksWriteNoRegister :
    (Instr.rdsnap.agent = .controlTask ∧ (after (exec .rdsnap mid)).isSome = true) ∧
    ((Instr.decode (dataRx 4) frameV4).agent = .receiveTask ∧
      (after (exec (.decode (dataRx 4) frameV4) mid)).isSome = true) := by decide
/-- Both ways it can go: an operation that completes, and one that is refused. -/
theorem witness_CodecHoldsNoState :
    mid.draws = State.reset.draws ∧ isCodecOp (.encode fieldsV4) = true ∧
    isCodecOp (.decode (dataRx 9) frameV4) = true ∧
    stop (exec (.decode (dataRx 9) frameV4) mid) = some .lengthAboveEight ∧
    stop (exec (.decode (dataRx 9) frameV4) State.reset) = some .lengthAboveEight := by decide
theorem witness_CodecCommutesWithEdges :
    isCodecOp (.encode fieldsV4) = true ∧ (Instr.edge 101500).agent = .edgeAgent ∧
    ∃ t u, exec (.encode fieldsV4) mid = .next t ∧ exec (.edge 101500) t = .next u :=
  ⟨rfl, rfl, _, _, rfl, rfl⟩
theorem witness_DecoderDependsOnRegistersOnly :
    isCodecOp (.edge 101500) = false ∧ SameRegisters mid placed ∧
    (after (exec (.edge 101500) mid)).isSome = true :=
  ⟨rfl, ⟨rfl, rfl, rfl, rfl, rfl⟩, by decide⟩
theorem witness_SnapshotHidesIndexAndTime :
    ∃ t₁ t₂, exec .rdsnap mid = .next t₁ ∧ exec .rdsnap full = .next t₂ ∧ t₁.result = t₂.result :=
  ⟨_, _, rfl, rfl, rfl⟩
theorem witness_VoltageIsScaledOnlyOnDecode : (dataRx 8).rtr = false ∧ (dataRx 8).len = 8 := by decide
theorem witness_EncodeOfDecodeKeepsSixBytes : (dataRx 8).rtr = false ∧ (dataRx 8).len = 8 := by decide
theorem witness_DecodeRefusesLongFrames : 8 < (dataRx 9).len.toNat ∧ 8 < ({ remoteRx with len := 15 } : RxMeta).len.toNat := by decide
theorem witness_DecodeReportsEveryFrame : (dataRx 0).len.toNat ≤ 8 ∧ (dataRx 8).len.toNat ≤ 8 ∧ remoteRx.len.toNat ≤ 8 := by decide
theorem witness_DecodeIsExactlyOneCase :
    (dataRx 3).len.toNat ≤ 8 ∧ (dataRx 4).len.toNat ≤ 8 ∧ (dataRx 7).len.toNat ≤ 8 ∧ (dataRx 8).len.toNat ≤ 8 := by decide
theorem witness_DecodeReadsNoAbsentByte :
    remoteRx.rtr = true ∧ (dataRx 3).len.toNat < 4 ∧
    ((dataRx 7).len.toNat < 8 ∧ frameV4[0] = (frameV4.set 7 9)[0] ∧ frameV4[1] = (frameV4.set 7 9)[1] ∧
      frameV4[2] = (frameV4.set 7 9)[2] ∧ frameV4[3] = (frameV4.set 7 9)[3] ∧ frameV4 ≠ frameV4.set 7 9) := by decide
theorem witness_RemoteRequestYieldsNoFields : remoteRx.rtr = true ∧ remoteRx.len.toNat ≤ 8 := by decide
theorem witness_ShortFrameYieldsNoFields : (dataRx 3).rtr = false ∧ (dataRx 3).len.toNat < 4 := by decide
theorem witness_PartialFrameYieldsThreeFields :
    (dataRx 4).rtr = false ∧ 4 ≤ (dataRx 4).len.toNat ∧ (dataRx 4).len.toNat ≤ 7 ∧ (dataRx 7).len.toNat ≤ 7 := by decide
theorem witness_FullFrameYieldsSixFields : (dataRx 8).rtr = false ∧ (dataRx 8).len = 8 := by decide
theorem witness_DecodedVoltageRange :
    (dataRx 8).rtr = false ∧ (dataRx 8).len = 8 ∧
    ∃ t rx' f, exec (.decode (dataRx 8) #v[0, 0, 0, 0, 0xFF, 0x9D, 0, 0]) mid = .next t ∧
      t.result = some (.fields true rx' f) ∧
      signedOf 16 (bigEndian (0xFF : Byte) 0x9D) = -99 ∧ signedOf 16 (bigEndian (0x00 : Byte) 0x63) = 99 :=
  ⟨rfl, rfl, _, _, _, rfl, rfl, by decide, by decide⟩
theorem witness_FrontEndIsNeutralWithoutData :
    State.reset.available = false ∧ (∃ t, exec .reset mid = .next t) ∧
    SyncWidth 3001 ∧ LostWidth 12001 ∧ (∃ t, exec (.pulse 12001) mid = .next t) :=
  ⟨rfl, ⟨_, rfl⟩, by decide, by decide, ⟨_, rfl⟩⟩
theorem witness_ReceiveLoopGatesOnMetadata :
    (∃ t rx' f, exec (.decode (dataRx 4) #v[3, 0x05, 0xDC, 0x5A, 0, 0, 0, 0]) mid = .next t ∧
      t.result = some (.fields true rx' f)) ∧
    (dataRx 4).rtr = false ∧ 4 ≤ (dataRx 4).len.toNat ∧ (dataRx 3).len.toNat < 4 ∧ remoteRx.rtr = true :=
  ⟨⟨_, _, _, rfl, rfl⟩, rfl, by decide, by decide, rfl⟩

end Sys2Proof.Tests
end

