-- ==== Sys2Proof/Proofs/CodecState.lean ====
section
/-! PROOFS. The codec holds no state (10_state.md R30). Every codec operation has one shape: it is refused
whatever the state, or it answers what its operand and the number of draws taken determine. -/

namespace Sys2Proof.Machine

/-! ### Answering from the draws alone -/

/-- The way a codec operation completes: it answers `r` of the draws taken and takes `n` more. -/
def State.answerFromDraws (s : State) (r : Nat → Result) (n : Nat) : State :=
  (s.answer (some (r s.draws))).drawn n

@[simp] theorem State.answerFromDraws_result (s : State) (r : Nat → Result) (n : Nat) :
    (s.answerFromDraws r n).result = some (r s.draws) := rfl
@[simp] theorem State.answerFromDraws_draws (s : State) (r : Nat → Result) (n : Nat) :
    (s.answerFromDraws r n).draws = s.draws + n := rfl
@[simp] theorem State.answerFromDraws_trace (s : State) (r : Nat → Result) (n : Nat) :
    (s.answerFromDraws r n).trace = s.trace := rfl

theorem sameRegisters_answerFromDraws (s : State) (r : Nat → Result) (n : Nat) :
    SameRegisters s (s.answerFromDraws r n) := ⟨rfl, rfl, rfl, rfl, rfl⟩

theorem State.reportNone_eq_answerFromDraws (s : State) (rx : RxMeta) :
    s.reportNone rx =
      s.answerFromDraws (fun k => .fields true (reportedMeta rx k) (drawnFields (k + 1))) 7 := rfl
theorem State.reportPart_eq_answerFromDraws (s : State) (rx : RxMeta) (p : PayloadHead) :
    s.reportPart rx p =
      s.answerFromDraws (fun k => .fields true (reportedMeta rx k) (partFields p (k + 1))) 4 := rfl
theorem State.reportFull_eq_answerFromDraws (s : State) (rx : RxMeta) (p : Payload) :
    s.reportFull rx p =
      s.answerFromDraws (fun k => .fields true (reportedMeta rx k) (fullFields p)) 1 := rfl

/-- A meaning that looks at no register: from every state it completes with one and the same function of
the draws taken, or from every state it is refused for one and the same reason. -/
def AnswersFromDraws (m : State → Host.Outcome State Fault Refusal) : Prop :=
  (∃ r n, ∀ s, m s = .next (s.answerFromDraws r n)) ∨ ∃ q, ∀ s, m s = .refused q

/-! ### The codec's meanings answer from the draws alone -/

theorem execEncode_answersFromDraws (f : Fields) : AnswersFromDraws (execEncode f) :=
  .inl ⟨fun k => .frame (framePayload f) (frameMeta k), 1, fun _ => rfl⟩

/-- Whether a case of `DECODE` is refused rests on its metadata alone (30_encoding.md R80). -/
theorem inCase_answersFromDraws (rx : RxMeta) (c : DecodeCase) (mnemonic : String) {f : State → State}
    {r : Nat → Result} {n : Nat} (hf : ∀ s, f s = s.answerFromDraws r n) :
    AnswersFromDraws fun s => inCase rx c mnemonic (f s) := by
  unfold inCase
  split_ifs
  · exact .inr ⟨_, fun _ => rfl⟩
  · exact .inl ⟨r, n, fun s => congrArg _ (hf s)⟩
  · exact .inr ⟨_, fun _ => rfl⟩

theorem execDecode_answersFromDraws (rx : RxMeta) (p : Payload) :
    AnswersFromDraws (execDecode rx p) := by
  unfold execDecode
  split
  · exact .inr ⟨_, fun _ => rfl⟩
  · cases decodeCase rx with
    | rtr => exact .inl ⟨_, _, fun s => congrArg _ (s.reportNone_eq_answerFromDraws rx)⟩
    | short => exact .inl ⟨_, _, fun s => congrArg _ (s.reportNone_eq_answerFromDraws rx)⟩
    | part => exact .inl ⟨_, _, fun s => congrArg _ (s.reportPart_eq_answerFromDraws rx (firstFour p))⟩
    | full => exact .inl ⟨_, _, fun s => congrArg _ (s.reportFull_eq_answerFromDraws rx p)⟩

/-- Every codec operation answers from its operand and the draws taken, and from nothing else
(10_state.md R30). -/
theorem exec_codec_answersFromDraws {i : Instr} (hi : isCodecOp i = true) :
    AnswersFromDraws (exec i) := by
  cases i with
  | encode f => exact execEncode_answersFromDraws f
  | decode rx p => exact execDecode_answersFromDraws rx p
  | decodeRtr rx => exact inCase_answersFromDraws rx _ _ (·.reportNone_eq_answerFromDraws rx)
  | decodeShort rx => exact inCase_answersFromDraws rx _ _ (·.reportNone_eq_answerFromDraws rx)
  | decodePart rx p => exact inCase_answersFromDraws rx _ _ (·.reportPart_eq_answerFromDraws rx p)
  | decodeFull rx p => exact inCase_answersFromDraws rx _ _ (·.reportFull_eq_answerFromDraws rx p)
  | edge | edgeSync | edgeLost | edgeChan | rdsnap | reset | pulse | train => cases hi

/-- Settles O25, from the one shape of every codec operation: with equally many draws taken the two
answers are the same function at the same number, and neither writes a register. -/
theorem codecHoldsNoState : Obligations.CodecHoldsNoState := by
  intro i s₁ s₂ hi hdraws
  obtain ⟨r, n, hnext⟩ | ⟨q, hrefused⟩ := exec_codec_answersFromDraws hi
  · refine .inl ⟨_, _, hnext s₁, hnext s₂, ?_, ?_,
      sameRegisters_answerFromDraws s₁ r n, sameRegisters_answerFromDraws s₂ r n⟩
    · simp [hdraws]
    · simp [hdraws]
  · exact .inr ⟨q, hrefused s₁, hrefused s₂⟩

end Sys2Proof.Machine
end

