-- ==== Sys2Proof/Proofs/SyncEdge.lean ====
section
/-! PROOFS. What `EDGE` does when its width selects a sync gap (40_pulse_decoder.md R101): the case, what
the case changes and keeps, and the completion of `EDGE` and of its case row with the same state. -/

namespace Sys2Proof.Machine

/-! ### The case the width selects -/

theorem edgeCase_edgeWidth_of_syncWidth {s : State} {now : Stamp} (h : SyncWidth (now - s.lastEdge)) :
    edgeCase (s.edgeWidth now) = .sync := edgeCase_eq_sync.mpr h

/-- A case operation of `EDGE` completes when its case is selected. -/
theorem inEdgeCase_of_selected {s : State} {now : Stamp} {c : EdgeCase} (m : String) (t : State)
    (h : edgeCase (s.edgeWidth now) = c) : inEdgeCase s now c m t = .next t := if_pos h

theorem edge_of_sync {s : State} {now : Stamp} (h : edgeCase (s.edgeWidth now) = .sync) :
    s.edge now = s.syncEdge now := by
  rw [State.edge, h]

/-! ### What a sync gap changes and what it keeps -/

@[simp] theorem State.syncEdge_ch (s : State) (now : Stamp) : (s.syncEdge now).ch = s.ch := rfl
@[simp] theorem State.syncEdge_idx (s : State) (now : Stamp) : (s.syncEdge now).idx = 0 := rfl
@[simp] theorem State.syncEdge_lastEdge (s : State) (now : Stamp) : (s.syncEdge now).lastEdge = now := rfl
@[simp] theorem State.syncEdge_available (s : State) (now : Stamp) : (s.syncEdge now).available = false := rfl
@[simp] theorem State.syncEdge_failsafe (s : State) (now : Stamp) : (s.syncEdge now).failsafe = false := rfl
@[simp] theorem State.syncEdge_trace (s : State) (now : Stamp) : (s.syncEdge now).trace = s.trace := rfl
@[simp] theorem State.syncEdge_result (s : State) (now : Stamp) : (s.syncEdge now).result = none := rfl
@[simp] theorem State.syncEdge_draws (s : State) (now : Stamp) : (s.syncEdge now).draws = s.draws := rfl

theorem returnsNothing_syncEdge (s : State) (now : Stamp) : ReturnsNothing s (s.syncEdge now) :=
  ⟨s.syncEdge_trace now, s.syncEdge_draws now, s.syncEdge_result now⟩

/-! ### The completion of both operations -/

theorem exec_edge_of_sync {s : State} {now : Stamp} (h : edgeCase (s.edgeWidth now) = .sync) :
    exec (.edge now) s = .next (s.syncEdge now) := congrArg _ (edge_of_sync h)

theorem exec_edgeSync_of_sync {s : State} {now : Stamp} (h : edgeCase (s.edgeWidth now) = .sync) :
    exec (.edgeSync now) s = .next (s.syncEdge now) := inEdgeCase_of_selected _ _ h

/-- Settles O11: the width selects the sync case, so `EDGE` and `EDGE.SYNC` both complete with
`State.syncEdge`, whose fields are the claim. -/
theorem syncEdgeRestartsFrame : Obligations.SyncEdgeRestartsFrame := by
  intro s now hwidth
  have hsync := edgeCase_edgeWidth_of_syncWidth hwidth
  exact ⟨s.syncEdge now, exec_edge_of_sync hsync, exec_edgeSync_of_sync hsync,
    s.syncEdge_idx now, s.syncEdge_failsafe now, s.syncEdge_available now, s.syncEdge_ch now,
    s.syncEdge_lastEdge now, returnsNothing_syncEdge s now⟩

end Sys2Proof.Machine
end

