-- ==== Sys2Proof/Proofs/EncodeFrame.lean ====
section
/-! PROOFS. What `ENCODE` returns (41_telemetry_codec.md R132): each byte of the frame as its field or as
half of one, the configured metadata, and the completion that hands both back. -/

namespace Sys2Proof.Machine

/-! ### The bytes of the frame -/

@[simp] theorem framePayload_driveMode (f : Fields) : (framePayload f)[0] = f.driveMode := rfl
@[simp] theorem framePayload_throttleHigh (f : Fields) : (framePayload f)[1] = hiByte f.throttle := rfl
@[simp] theorem framePayload_throttleLow (f : Fields) : (framePayload f)[2] = loByte f.throttle := rfl
@[simp] theorem framePayload_steeringAngle (f : Fields) : (framePayload f)[3] = f.steeringAngle := rfl
@[simp] theorem framePayload_voltageHigh (f : Fields) : (framePayload f)[4] = hiByte f.voltage := rfl
@[simp] theorem framePayload_voltageLow (f : Fields) : (framePayload f)[5] = loByte f.voltage := rfl
@[simp] theorem framePayload_velocity (f : Fields) : (framePayload f)[6] = f.velocity := rfl
@[simp] theorem framePayload_acknowledged (f : Fields) : (framePayload f)[7] = f.acknowledged := rfl

/-! ### The metadata of the frame -/

@[simp] theorem frameMeta_id (k : Nat) : (frameMeta k).id = Config.busId := rfl
@[simp] theorem frameMeta_ext (k : Nat) : (frameMeta k).ext = Config.busExt := rfl
@[simp] theorem frameMeta_rtr (k : Nat) : (frameMeta k).rtr = false := rfl
@[simp] theorem frameMeta_reqLen (k : Nat) : (frameMeta k).reqLen = Config.draw _ k := rfl
@[simp] theorem frameMeta_len (k : Nat) : (frameMeta k).len = 8 := rfl

/-! ### The completion -/

/-- `ENCODE` completes for every operand, with the frame and metadata that take the next draw. -/
theorem exec_encode (f : Fields) (s : State) :
    exec (.encode f) s =
      .next (s.answerFromDraws (fun k => .frame (framePayload f) (frameMeta k)) 1) := rfl

/-- Settles O31: `ENCODE` completes with `framePayload` and `frameMeta`; their members are the claim, the
16-bit fields through the halves `hiByte` and `loByte` as numbers. -/
theorem encodeWritesTheFrame : Obligations.EncodeWritesTheFrame := by
  intro f s
  refine ⟨_, framePayload f, frameMeta s.draws, exec_encode f s, s.answerFromDraws_result _ _,
    framePayload_driveMode f, ?throttleHigh, ?throttleLow, framePayload_steeringAngle f,
    ?voltageHigh, ?voltageLow, framePayload_velocity f, framePayload_acknowledged f,
    frameMeta_id _, frameMeta_ext _, frameMeta_rtr _, frameMeta_len _,
    sameRegisters_answerFromDraws s _ _, s.answerFromDraws_trace _ _⟩
  case throttleHigh => rw [framePayload_throttleHigh, hiByte_toNat]
  case throttleLow => rw [framePayload_throttleLow, loByte_toNat]
  case voltageHigh => rw [framePayload_voltageHigh, hiByte_toNat]
  case voltageLow => rw [framePayload_voltageLow, loByte_toNat]

end Sys2Proof.Machine
end

