-- ==== Sys2Proof/Proofs/EdgeEffect.lean ====
section
/-! PROOFS. What one edge makes of the registers (40_pulse_decoder.md R100 to R104), said once: the four
ways an edge of a given width can end, for `PULSE`, for `EDGE` and for its case rows alike. -/

namespace Sys2Proof.Machine

/-! ### Widths -/

/-- What a captured width is stored as, as the spec writes it (R105). -/
theorem channelValue_toNat_eq_storedMicros (w : Stamp) : (channelValue w).toNat = storedMicros w := by
  rw [channelValue_toNat, clamp, storedMicros]

/-! ### A lost signal and a channel edge -/

theorem edge_of_lost {s : State} {now : Stamp} (h : edgeCase (s.edgeWidth now) = .lost) :
    s.edge now = s.lostEdge now := by
  rw [State.edge, h]

theorem edge_of_chan {s : State} {now : Stamp} (h : edgeCase (s.edgeWidth now) = .chan) :
    s.edge now = s.chanEdge now := by
  rw [State.edge, h]

@[simp] theorem State.lostEdge_ch (s : State) (now : Stamp) : (s.lostEdge now).ch = s.ch := rfl
@[simp] theorem State.lostEdge_idx (s : State) (now : Stamp) : (s.lostEdge now).idx = s.idx := rfl
@[simp] theorem State.lostEdge_available (s : State) (now : Stamp) : (s.lostEdge now).available = false := rfl
@[simp] theorem State.lostEdge_failsafe (s : State) (now : Stamp) : (s.lostEdge now).failsafe = true := rfl

@[simp] theorem State.chanEdge_ch (s : State) (now : Stamp) :
    (s.chanEdge now).ch = (s.capture (s.edgeWidth now)).ch := rfl
@[simp] theorem State.chanEdge_idx (s : State) (now : Stamp) :
    (s.chanEdge now).idx = (s.capture (s.edgeWidth now)).idx := rfl
@[simp] theorem State.chanEdge_available (s : State) (now : Stamp) :
    (s.chanEdge now).available = (s.capture (s.edgeWidth now)).available := rfl
@[simp] theorem State.chanEdge_failsafe (s : State) (now : Stamp) :
    (s.chanEdge now).failsafe = s.failsafe := capture_failsafe s (s.edgeWidth now)

/-! ### The effect of an edge -/

/-- The ways an edge of width `w` can take the registers of `s` to those of `t`. -/
inductive EdgeEffect (w : Stamp) (s t : State) : Prop where
  /-- `EDGE.SYNC`: a new frame begins (R101). -/
  | sync (width : SyncWidth w) (idx : t.idx = 0) (ch : t.ch = s.ch)
      (available : t.available = false) (failsafe : t.failsafe = false)
  /-- `EDGE.LOST`: the index stays (R102). -/
  | lost (width : LostWidth w) (idx : t.idx = s.idx) (ch : t.ch = s.ch)
      (available : t.available = false) (failsafe : t.failsafe = true)
  /-- `EDGE.CHAN` in bounds: the width is stored at the index (R103). -/
  | stored (width : ChanWidth w) (inBounds : s.idx.toNat < 8) (idx : t.idx.toNat = s.idx.toNat + 1)
      (ch : ∀ k : Fin 8, t.ch[k] = if k.val = s.idx.toNat then channelValue w else s.ch[k])
      (available : t.available = true) (failsafe : t.failsafe = s.failsafe)
  /-- `EDGE.CHAN` out of bounds: nothing is stored (R103, R104; log 9). -/
  | discarded (width : ChanWidth w) (outOfBounds : 8 ≤ s.idx.toNat) (idx : t.idx = s.idx)
      (ch : t.ch = s.ch) (available : t.available = s.available) (failsafe : t.failsafe = s.failsafe)

theorem chanEdge_effect (s : State) (now : Stamp) (h : ChanWidth (s.edgeWidth now)) :
    EdgeEffect (s.edgeWidth now) s (s.chanEdge now) := by
  obtain ⟨hout, hsame⟩ | ⟨hin, -, hidx, hch, havailable, -⟩ := capture_cases s (s.edgeWidth now)
  · exact .discarded h (by omega) (by simp [hsame]) (by simp [hsame]) (by simp [hsame])
      (s.chanEdge_failsafe now)
  · exact .stored h hin hidx (fun k => by simpa [eq_comm] using hch k) havailable
      (s.chanEdge_failsafe now)

/-- The effect of `EDGE` is that of the case its width selects. -/
theorem edge_effect (s : State) (now : Stamp) : EdgeEffect (s.edgeWidth now) s (s.edge now) := by
  obtain ⟨hcase, hedge⟩ | ⟨hcase, hedge⟩ | ⟨hcase, hedge⟩ := edge_cases s now
  · rw [hedge]
    exact .sync (edgeCase_eq_sync.mp hcase) (s.syncEdge_idx now) (s.syncEdge_ch now)
      (s.syncEdge_available now) (s.syncEdge_failsafe now)
  · rw [hedge]
    exact .lost (edgeCase_eq_lost.mp hcase) (s.lostEdge_idx now) (s.lostEdge_ch now)
      (s.lostEdge_available now) (s.lostEdge_failsafe now)
  · rw [hedge]
    exact chanEdge_effect s now (edgeCase_eq_chan.mp hcase)

namespace EdgeEffect

variable {w : Stamp} {s t : State}

theorem of_syncWidth (h : EdgeEffect w s t) (hw : SyncWidth w) :
    t.idx = 0 ∧ t.available = false ∧ t.failsafe = false ∧ t.ch = s.ch := by
  cases h with
  | sync _ idx ch available failsafe => exact ⟨idx, available, failsafe, ch⟩
  | lost | stored | discarded => omega

theorem of_lostWidth (h : EdgeEffect w s t) (hw : LostWidth w) :
    t.idx = s.idx ∧ t.available = false ∧ t.failsafe = true ∧ t.ch = s.ch := by
  cases h with
  | lost _ idx ch available failsafe => exact ⟨idx, available, failsafe, ch⟩
  | sync | stored | discarded => omega

theorem failsafe_of_chanWidth (h : EdgeEffect w s t) (hw : ChanWidth w) : t.failsafe = s.failsafe := by
  cases h with
  | stored _ _ _ _ _ failsafe => exact failsafe
  | discarded _ _ _ _ _ failsafe => exact failsafe
  | sync | lost => omega

theorem of_inBounds (h : EdgeEffect w s t) (hw : ChanWidth w) (hidx : s.idx.toNat < 8) :
    t.idx.toNat = s.idx.toNat + 1 ∧ t.available = true ∧
      ∀ k : Fin 8, t.ch[k] = if k.val = s.idx.toNat then channelValue w else s.ch[k] := by
  cases h with
  | stored _ _ idx ch available _ => exact ⟨idx, available, ch⟩
  | sync | lost | discarded => omega

theorem of_outOfBounds (h : EdgeEffect w s t) (hw : ChanWidth w) (hidx : 8 ≤ s.idx.toNat) :
    t.idx = s.idx ∧ t.available = s.available ∧ t.ch = s.ch := by
  cases h with
  | discarded _ _ idx ch available _ => exact ⟨idx, available, ch⟩
  | sync | lost | stored => omega

/-- The in-bounds capture with the stored value as the spec writes it (R105). -/
theorem storedMicros_of_inBounds (h : EdgeEffect w s t) (hw : ChanWidth w) (hidx : s.idx.toNat < 8) :
    t.idx.toNat = s.idx.toNat + 1 ∧ t.available = true ∧
      ∀ k : Fin 8, t.ch[k].toNat = if k.val = s.idx.toNat then storedMicros w else s.ch[k].toNat := by
  obtain ⟨idx, available, ch⟩ := h.of_inBounds hw hidx
  refine ⟨idx, available, fun k => ?_⟩
  rw [ch k, ← channelValue_toNat_eq_storedMicros, ← apply_ite BitVec.toNat]

end EdgeEffect

theorem returnsNothing_edge (s : State) (now : Stamp) : ReturnsNothing s (s.edge now) :=
  ⟨edge_trace s now, edge_draws s now, edge_result s now⟩

/-! ### Pulses: an edge named by its width -/

/-- An edge is the pulse of its own width (R87). -/
theorem edge_eq_pulseEdge (s : State) (now : Stamp) : s.edge now = s.pulseEdge (now - s.lastEdge) := by
  rw [State.pulseEdge, BitVec.add_comm, BitVec.sub_add_cancel]

theorem pulseEdge_effect (s : State) (w : Stamp) : EdgeEffect w s (s.pulseEdge w) := by
  simpa [State.pulseEdge] using edge_effect s (s.lastEdge + w)

@[simp] theorem pulseEdge_lastEdge (s : State) (w : Stamp) : (s.pulseEdge w).lastEdge = s.lastEdge + w :=
  edge_lastEdge s _
@[simp] theorem pulseEdge_trace (s : State) (w : Stamp) : (s.pulseEdge w).trace = s.trace := edge_trace s _
@[simp] theorem pulseEdge_draws (s : State) (w : Stamp) : (s.pulseEdge w).draws = s.draws := edge_draws s _
@[simp] theorem pulseEdge_result (s : State) (w : Stamp) : (s.pulseEdge w).result = none := edge_result s _

theorem returnsNothing_pulseEdge (s : State) (w : Stamp) : ReturnsNothing s (s.pulseEdge w) :=
  returnsNothing_edge s _

/-! ### The operations that bring one edge -/

theorem exec_edge (now : Stamp) (s : State) : exec (.edge now) s = .next (s.edge now) := rfl

theorem exec_pulse (w : Stamp) (s : State) : exec (.pulse w) s = .next (s.pulseEdge w) := rfl

/-- A case operation of `EDGE` rests on its effect only where its case is selected. -/
theorem inEdgeCase_congr {s t u : State} {now : Stamp} {c : EdgeCase} (m : String)
    (h : edgeCase (s.edgeWidth now) = c → t = u) : inEdgeCase s now c m t = inEdgeCase s now c m u := by
  unfold inEdgeCase
  split
  next hc => rw [h hc]
  · rfl

/-- A case row does what `EDGE` does, where its case is selected (R79; log 3). -/
theorem exec_edgeSync (now : Stamp) (s : State) :
    exec (.edgeSync now) s = inEdgeCase s now .sync "EDGE.SYNC" (s.edge now) :=
  inEdgeCase_congr _ fun h => (edge_of_sync h).symm

theorem exec_edgeLost (now : Stamp) (s : State) :
    exec (.edgeLost now) s = inEdgeCase s now .lost "EDGE.LOST" (s.edge now) :=
  inEdgeCase_congr _ fun h => (edge_of_lost h).symm

theorem exec_edgeChan (now : Stamp) (s : State) :
    exec (.edgeChan now) s = inEdgeCase s now .chan "EDGE.CHAN" (s.edge now) :=
  inEdgeCase_congr _ fun h => (edge_of_chan h).symm

theorem exec_edgeLost_of_lost {s : State} {now : Stamp} (h : edgeCase (s.edgeWidth now) = .lost) :
    exec (.edgeLost now) s = .next (s.edge now) :=
  (exec_edgeLost now s).trans (inEdgeCase_of_selected _ _ h)

theorem exec_edgeChan_of_chan {s : State} {now : Stamp} (h : edgeCase (s.edgeWidth now) = .chan) :
    exec (.edgeChan now) s = .next (s.edge now) :=
  (exec_edgeChan now s).trans (inEdgeCase_of_selected _ _ h)

/-- A case operation of `EDGE` is refused under its own name when another case is selected. -/
theorem inEdgeCase_of_not_selected {s : State} {now : Stamp} {c : EdgeCase} (m : String) (t : State)
    (h : edgeCase (s.edgeWidth now) ≠ c) :
    inEdgeCase s now c m t = .refused (.caseNotSelected m) := if_neg h

/-! ### The statements about one edge -/

/-- Settles O12: the width selects the lost case, and a step without a request is idle by definition. -/
theorem lostEdgeAssertsFailsafe : Obligations.LostEdgeAssertsFailsafe := by
  refine ⟨fun s now hwidth => ?_, fun s hs => by rw [step, hs]⟩
  obtain ⟨idx, available, failsafe, ch⟩ := (edge_effect s now).of_lostWidth hwidth
  exact ⟨s.edge now, exec_edge now s, exec_edgeLost_of_lost (edgeCase_eq_lost.mpr hwidth),
    failsafe, available, idx, ch, edge_lastEdge s now, returnsNothing_edge s now⟩

/-- Settles O13: the width selects the channel case, whose two branches are the claim. -/
theorem channelEdgeCaptures : Obligations.ChannelEdgeCaptures := by
  intro s now hwidth
  have heffect := edge_effect s now
  exact ⟨s.edge now, exec_edge now s, exec_edgeChan_of_chan (edgeCase_eq_chan.mpr hwidth),
    edge_lastEdge s now, heffect.failsafe_of_chanWidth hwidth, returnsNothing_edge s now,
    heffect.storedMicros_of_inBounds hwidth, heffect.of_outOfBounds hwidth⟩

/-- Settles O14: each case row completes as `EDGE` exactly where the width selects its case. -/
theorem edgeIsExactlyOneCase : Obligations.EdgeIsExactlyOneCase := by
  intro s now
  refine ⟨s.edge now, exec_edge now s, ?_⟩
  rw [exec_edgeSync, exec_edgeLost, exec_edgeChan]
  cases hcase : edgeCase (s.edgeWidth now) with
  | sync => exact .inl ⟨inEdgeCase_of_selected _ _ hcase,
      inEdgeCase_of_not_selected _ _ (by simp [hcase]), inEdgeCase_of_not_selected _ _ (by simp [hcase])⟩
  | lost => exact .inr (.inl ⟨inEdgeCase_of_not_selected _ _ (by simp [hcase]),
      inEdgeCase_of_selected _ _ hcase, inEdgeCase_of_not_selected _ _ (by simp [hcase])⟩)
  | chan => exact .inr (.inr ⟨inEdgeCase_of_not_selected _ _ (by simp [hcase]),
      inEdgeCase_of_not_selected _ _ (by simp [hcase]), inEdgeCase_of_selected _ _ hcase⟩)

/-- The time base `d` µs after `v`, reduced to its width (40_pulse_decoder.md R107). -/
theorem ofNat_toNat_add (v : Stamp) (d : Nat) :
    BitVec.ofNat 32 (v.toNat + d) = v + BitVec.ofNat 32 d := by
  rw [BitVec.ofNat_add, BitVec.ofNat_toNat, BitVec.setWidth_eq]

/-- Settles O15: counting `d` µs on is adding `d` modulo 2^32, and `PULSE` is the edge that much later. -/
theorem widthIsElapsedTimeModuloWrap : Obligations.WidthIsElapsedTimeModuloWrap := by
  intro s d
  rw [ofNat_toNat_add, BitVec.add_comm, BitVec.add_sub_cancel, BitVec.add_comm]
  exact ⟨BitVec.toNat_ofNat d 32, rfl⟩

/-- Settles O16: the three classes of widths are the four ways of `EdgeEffect`. -/
theorem pulseSelectsByItsWidth : Obligations.PulseSelectsByItsWidth := by
  intro s w
  have heffect := pulseEdge_effect s w
  exact ⟨s.pulseEdge w, exec_pulse w s, pulseEdge_lastEdge s w, returnsNothing_pulseEdge s w,
    heffect.of_syncWidth, heffect.of_lostWidth,
    fun hwidth => ⟨heffect.failsafe_of_chanWidth hwidth, heffect.storedMicros_of_inBounds hwidth,
      heffect.of_outOfBounds hwidth⟩⟩

end Sys2Proof.Machine
end

