-- ==== Sys2Proof/Proofs/ExecEffect.lean ====
section
/-! PROOFS. What one operation and one step can do, said once over all fourteen operations; the invariants
(40_pulse_decoder.md R110), the writers of each register and the names of the stops follow from it. -/

namespace Sys2Proof.Machine

/-! ### Registers kept -/

theorem SameRegisters.symm {s t : State} (h : SameRegisters s t) : SameRegisters t s :=
  ⟨h.ch.symm, h.idx.symm, h.lastEdge.symm, h.available.symm, h.failsafe.symm⟩

theorem SameRegisters.trans {s t u : State} (h : SameRegisters s t) (h' : SameRegisters t u) :
    SameRegisters s u :=
  ⟨h'.ch.trans h.ch, h'.idx.trans h.idx, h'.lastEdge.trans h.lastEdge,
    h'.available.trans h.available, h'.failsafe.trans h.failsafe⟩

theorem sameRegisters_answer (s : State) (r : Option Result) : SameRegisters s (s.answer r) :=
  ⟨rfl, rfl, rfl, rfl, rfl⟩

/-! ### What an operation can do -/

theorem exec_rdsnap (s : State) :
    exec .rdsnap s = .next (s.answer (some (.snapshot s.snapshot))) := rfl

theorem exec_reset (s : State) :
    exec .reset s = .next ((s.resetDecoder Config.chReset Config.lastEdgeReset).answer none) := rfl

theorem exec_train (g : Stamp) (ws : List Stamp) (s : State) :
    exec (.train g ws) s = .next (s.pulseEdges (g :: ws)) := rfl

/-- The ways the operation `i` can complete: it is one pulse, several, a reset, a snapshot, or it answers
from its operand and the draws alone. -/
inductive ExecEffect (i : Instr) (s t : State) : Prop where
  | edge (w : Stamp) (width : edgeWidthOf i s = some w) (agent : i.agent = .edgeAgent)
      (next : t = s.pulseEdge w)
  | train (g : Stamp) (ws : List Stamp) (op : i = .train g ws) (next : t = s.pulseEdges (g :: ws))
  | reset (op : i = .reset)
      (next : t = (s.resetDecoder Config.chReset Config.lastEdgeReset).answer none)
  | rdsnap (op : i = .rdsnap) (next : t = s.answer (some (.snapshot s.snapshot)))
  | codec (op : isCodecOp i = true) (r : Nat → Result) (n : Nat) (next : t = s.answerFromDraws r n)

/-- A case row that completes is the pulse of the edge's width. -/
theorem inEdgeCase_edge_next {s t : State} {now : Stamp} {c : EdgeCase} {m : String}
    (h : inEdgeCase s now c m (s.edge now) = .next t) : t = s.pulseEdge (now - s.lastEdge) :=
  (inEdgeCase_next h).2.trans (edge_eq_pulseEdge s now)

theorem exec_codec_effect {i : Instr} {s t : State} (hi : isCodecOp i = true) (h : exec i s = .next t) :
    ExecEffect i s t := by
  obtain ⟨r, n, hnext⟩ | ⟨q, hrefused⟩ := exec_codec_answersFromDraws hi
  · cases (hnext s).symm.trans h; exact .codec hi r n rfl
  · cases (hrefused s).symm.trans h

/-- Every operation that completes does so in one of the ways of `ExecEffect`. -/
theorem exec_effect {i : Instr} {s t : State} (h : exec i s = .next t) : ExecEffect i s t := by
  cases i with
  | edge now =>
    rw [exec_edge, edge_eq_pulseEdge] at h; cases h
    exact .edge (now - s.lastEdge) rfl rfl rfl
  | edgeSync now =>
    rw [exec_edgeSync] at h
    exact .edge (now - s.lastEdge) rfl rfl (inEdgeCase_edge_next h)
  | edgeLost now =>
    rw [exec_edgeLost] at h
    exact .edge (now - s.lastEdge) rfl rfl (inEdgeCase_edge_next h)
  | edgeChan now =>
    rw [exec_edgeChan] at h
    exact .edge (now - s.lastEdge) rfl rfl (inEdgeCase_edge_next h)
  | pulse w => cases h; exact .edge w rfl rfl rfl
  | train g ws => cases h; exact .train g ws rfl rfl
  | reset => cases h; exact .reset rfl rfl
  | rdsnap => cases h; exact .rdsnap rfl rfl
  | encode | decode | decodeRtr | decodeShort | decodePart | decodeFull =>
    exact exec_codec_effect rfl h

theorem edgeWidthOf_of_codec {i : Instr} (s : State) (hi : isCodecOp i = true) :
    edgeWidthOf i s = none := by
  cases i with
  | encode | decode | decodeRtr | decodeShort | decodePart | decodeFull => rfl
  | edge | edgeSync | edgeLost | edgeChan | rdsnap | reset | pulse | train => cases hi

/-! ### The invariants -/

theorem inv_of_sameRegisters {s t : State} (hs : Inv s) (h : SameRegisters s t) : Inv t where
  idxBound := h.idx ▸ hs.idxBound
  channels k := by rw [ChannelInRange, h.ch]; exact hs.channels k
  captured ha := h.idx ▸ hs.captured (h.available ▸ ha)

/-- An edge keeps the invariants, whichever of its four ways it ends. -/
theorem EdgeEffect.inv {w : Stamp} {s t : State} (h : EdgeEffect w s t) (hs : Inv s) : Inv t := by
  have hidxBound := hs.idxBound
  cases h with
  | sync _ idx ch available _ =>
    exact ⟨by simp [idx], fun k => by rw [ChannelInRange, ch]; exact hs.channels k,
      fun ha => by simp [available] at ha⟩
  | lost _ idx ch available _ =>
    exact ⟨idx ▸ hidxBound, fun k => by rw [ChannelInRange, ch]; exact hs.channels k,
      fun ha => by simp [available] at ha⟩
  | stored _ inBounds idx ch _ _ =>
    refine ⟨by omega, fun k => ?_, fun _ => by omega⟩
    rw [ChannelInRange, ch k]
    split_ifs
    · exact .inr (channelValue_bounds w)
    · exact hs.channels k
  | discarded _ outOfBounds idx ch _ _ =>
    exact ⟨idx ▸ hidxBound, fun k => by rw [ChannelInRange, ch]; exact hs.channels k,
      fun _ => by rw [idx]; omega⟩

theorem inv_pulseEdges (ws : List Stamp) {s : State} (hs : Inv s) : Inv (s.pulseEdges ws) := by
  induction ws generalizing s with
  | nil => exact hs
  | cons w ws ih => exact ih ((pulseEdge_effect s w).inv hs)

/-- The registers after `RESET` meet the invariants, whatever the rest of the state holds. -/
theorem inv_resetDecoder (s : State) : Inv (s.resetDecoder Config.chReset Config.lastEdgeReset) where
  idxBound := by simp
  channels _ := .inl rfl
  captured h := by simp at h

theorem ExecEffect.inv {i : Instr} {s t : State} (h : ExecEffect i s t) (hs : Inv s) : Inv t := by
  cases h with
  | edge w _ _ next => exact next ▸ (pulseEdge_effect s w).inv hs
  | train g ws _ next => exact next ▸ inv_pulseEdges (g :: ws) hs
  | reset _ next => exact next ▸ inv_of_sameRegisters (inv_resetDecoder s) (sameRegisters_answer _ _)
  | rdsnap _ next => exact next ▸ inv_of_sameRegisters hs (sameRegisters_answer _ _)
  | codec _ r n next => exact next ▸ inv_of_sameRegisters hs (sameRegisters_answerFromDraws s r n)

theorem inv_withTrace {s : State} (hs : Inv s) (rest : List Request) :
    Inv { s with trace := rest } :=
  inv_of_sameRegisters hs ⟨rfl, rfl, rfl, rfl, rfl⟩

/-- Settles O3: a step is idle or one operation, and every way an operation completes keeps `Inv`. -/
theorem stepKeepsInvariant : Obligations.StepKeepsInvariant := by
  intro s t hs hstep
  obtain ⟨-, rfl⟩ | ⟨r, rest, i, -, -, hexec⟩ := step_cases hstep
  · exact hs
  · exact (exec_effect hexec).inv (inv_withTrace hs rest)

/-- Settles O2: the state after reset is one whose decoder was reset. -/
theorem resetStateMeetsInvariant : Obligations.ResetStateMeetsInvariant :=
  inv_resetDecoder State.reset

/-! ### The step -/

theorem step_of_request {s : State} {r : Request} {rest : List Request} {i : Instr}
    (htrace : s.trace = r :: rest) (hdecode : decode r = .ok i) :
    step s = exec i { s with trace := rest } := by
  simp only [step, htrace, hdecode]

/-- Settles O4. -/
theorem stepRunsDecodedOperation : Obligations.StepRunsDecodedOperation :=
  fun _ _ _ _ => step_of_request

/-- Settles O5. -/
theorem stepIdlesWithoutRequest : Obligations.StepIdlesWithoutRequest := by
  intro s hs
  rw [step, hs]

/-! ### Who writes what -/

/-- Settles O22: an edge writes the flags as `EdgeEffect` says, `RESET` clears them, the rest keep them. -/
theorem flagWriters : Obligations.FlagWriters := by
  intro i s t hexec htrain
  cases exec_effect hexec with
  | edge w width _ next =>
    have heffect := pulseEdge_effect s w
    rw [← next] at heffect
    rw [width]
    refine ⟨fun hw => ?_, fun hw => ?_, fun hw => ⟨?_, heffect.failsafe_of_chanWidth hw⟩⟩
    · obtain ⟨-, available, failsafe, -⟩ := heffect.of_syncWidth hw
      exact ⟨available, failsafe⟩
    · obtain ⟨-, available, failsafe, -⟩ := heffect.of_lostWidth hw
      exact ⟨available, failsafe⟩
    · by_cases hidx : s.idx.toNat < 8
      · obtain ⟨-, available, -⟩ := heffect.of_inBounds hw hidx
        simp [available, hidx]
      · obtain ⟨-, available, -⟩ := heffect.of_outOfBounds hw (by omega)
        simp [available, hidx]
  | train g ws op _ => exact absurd op (htrain g ws)
  | reset op next =>
    subst op next
    exact ⟨fun _ => ⟨rfl, rfl⟩, fun h => absurd rfl h⟩
  | rdsnap op next =>
    subst op next
    exact ⟨fun h => Instr.noConfusion h, fun _ => ⟨rfl, rfl⟩⟩
  | codec op r n next =>
    subst next
    rw [edgeWidthOf_of_codec s op]
    refine ⟨fun h => ?_, fun _ => ⟨rfl, rfl⟩⟩
    subst h; cases op

/-- A channel register that an edge changes is the one at the index, and takes a value in range (R103). -/
theorem EdgeEffect.ch_changed {w : Stamp} {s t : State} (h : EdgeEffect w s t) {k : Fin 8}
    (hk : t.ch[k] ≠ s.ch[k]) :
    k.val = s.idx.toNat ∧ 1000 ≤ t.ch[k].toNat ∧ t.ch[k].toNat ≤ 2000 ∧ ChanWidth w := by
  cases h with
  | sync _ _ ch | lost _ _ ch | discarded _ _ _ ch => simp [ch] at hk
  | stored width _ _ ch =>
    rw [ch k] at hk ⊢
    split_ifs at hk ⊢ with hidx
    · exact ⟨hidx, (channelValue_bounds w).1, (channelValue_bounds w).2, width⟩
    · exact absurd rfl hk

/-- An edge keeps the index, restarts it or moves it up by one (R101 to R103). -/
theorem EdgeEffect.idx_moved {w : Stamp} {s t : State} (h : EdgeEffect w s t) :
    t.idx = s.idx ∨ (SyncWidth w ∧ t.idx = 0) ∨
      (ChanWidth w ∧ s.idx.toNat < 8 ∧ t.idx.toNat = s.idx.toNat + 1) := by
  cases h with
  | sync width idx => exact .inr (.inl ⟨width, idx⟩)
  | lost _ idx => exact .inl idx
  | stored width inBounds idx => exact .inr (.inr ⟨width, inBounds, idx⟩)
  | discarded _ _ idx => exact .inl idx

/-- Settles O23: only an edge moves `CH`, `IDX` and `LAST_EDGE`, as `EdgeEffect` says. -/
theorem registerWriters : Obligations.RegisterWriters := by
  intro i s t hexec hreset htrain
  cases exec_effect hexec with
  | edge w width _ next =>
    have heffect := pulseEdge_effect s w
    rw [← next] at heffect
    rw [width]
    refine ⟨fun k hk => ?_, ?_, by rw [next]; exact pulseEdge_lastEdge s w⟩
    · obtain ⟨hidx, hlow, hhigh, hwidth⟩ := heffect.ch_changed hk
      exact ⟨hidx, hlow, hhigh, w, rfl, hwidth⟩
    · exact heffect.idx_moved.imp_right fun hmoved => ⟨w, rfl, hmoved⟩
  | train g ws op _ => exact absurd op (htrain g ws)
  | reset op _ => exact absurd op hreset
  | rdsnap op next =>
    subst op next
    exact ⟨fun k hk => absurd rfl hk, .inl rfl, rfl⟩
  | codec op r n next =>
    subst next
    rw [edgeWidthOf_of_codec s op]
    exact ⟨fun k hk => absurd rfl hk, .inl rfl, rfl⟩

/-- Settles O24: the tasks' operations are `RDSNAP` and the codec's, which only answer. -/
theorem tasksWriteNoRegister : Obligations.TasksWriteNoRegister := by
  intro i s t hagent hexec
  cases exec_effect hexec with
  | edge w _ agent _ => simp [agent] at hagent
  | train g ws op _ => simp [op, Instr.agent] at hagent
  | reset op _ => simp [op, Instr.agent] at hagent
  | rdsnap _ next => subst next; exact ⟨sameRegisters_answer _ _, rfl⟩
  | codec _ r n next => subst next; exact ⟨sameRegisters_answerFromDraws s r n, rfl⟩

end Sys2Proof.Machine
end

