-- ==== Sys2Proof/Proofs/RequestRoundTrip.lean ====
section
/-! PROOFS. Requests and operations (30_encoding.md R70; the packing: log 2). Each operand format is
inverted once, in both directions; decoding after encoding and encoding after decoding then go format by
format. -/

namespace Sys2Proof

/-! ### From an operand to its bytes and back -/

theorem decodeStamp_stampBytes (op : Op) (v : Stamp) (mk : Stamp → Instr) :
    decodeStamp op (stampBytes v) mk = .ok (mk v) :=
  congrArg (fun w => Except.ok (mk w)) (stampOfBytes_stampBytes v)

theorem decodeFields_fieldsBytes (op : Op) (f : Fields) :
    decodeFields op (fieldsBytes f) = .ok (.encode f) := by
  simp [fieldsBytes, decodeFields]

/-- Metadata the encoder writes is read back, and the operation it selects is accepted. -/
theorem decodeMeta_metaBytes {op : Op} {rx : RxMeta} {payload : List Byte}
    {mk : RxMeta → List Byte → Option Instr} {i : Instr} (hmk : mk rx payload = some i)
    (hi : i.wellFormed = true) : decodeMeta op (metaBytes rx.word ++ payload) mk = .ok i := by
  simp [decodeMeta, metaBytes, hmk, hi]

theorem payload8_toList (mk : Payload → Instr) (p : Payload) : payload8 mk p.toList = some (mk p) := by
  obtain ⟨⟨bytes⟩, hsize⟩ := p
  match bytes, hsize with
  | [_, _, _, _, _, _, _, _], _ => rfl

theorem payload4_toList (mk : PayloadHead → Instr) (p : PayloadHead) :
    payload4 mk p.toList = some (mk p) := by
  obtain ⟨⟨bytes⟩, hsize⟩ := p
  match bytes, hsize with
  | [_, _, _, _], _ => rfl

theorem decodeMeta_payload8 (op : Op) (mk : RxMeta → Payload → Instr) {rx : RxMeta} {p : Payload}
    (hi : (mk rx p).wellFormed = true) :
    decodeMeta op (metaBytes rx.word ++ p.toList) (fun rx => payload8 (mk rx)) = .ok (mk rx p) :=
  decodeMeta_metaBytes (mk := fun rx => payload8 (mk rx)) (payload8_toList _ p) hi

theorem decodeMeta_payload4 (op : Op) (mk : RxMeta → PayloadHead → Instr) {rx : RxMeta} {p : PayloadHead}
    (hi : (mk rx p).wellFormed = true) :
    decodeMeta op (metaBytes rx.word ++ p.toList) (fun rx => payload4 (mk rx)) = .ok (mk rx p) :=
  decodeMeta_metaBytes (mk := fun rx => payload4 (mk rx)) (payload4_toList _ p) hi

theorem decodeMeta_payload0 (op : Op) (mk : RxMeta → Instr) {rx : RxMeta}
    (hi : (mk rx).wellFormed = true) :
    decodeMeta op (metaBytes rx.word) (fun rx => payload0 (mk rx)) = .ok (mk rx) :=
  decodeMeta_metaBytes (mk := fun rx => payload0 (mk rx)) (payload := []) rfl hi

theorem stampsOfBytes_flatMap (ws : List Stamp) : stampsOfBytes (ws.flatMap stampBytes) = some ws := by
  induction ws with
  | nil => simp [stampsOfBytes]
  | cons w ws ih => rw [List.flatMap_cons, stampsOfBytes_stampBytes, ih, Option.map_some]

theorem decodeTrain_flatMap (g : Stamp) (ws : List Stamp) :
    decodeTrain ((g :: ws).flatMap stampBytes) = .ok (.train g ws) := by
  rw [decodeTrain, stampsOfBytes_flatMap]

/-- Settles O7, format by format: each reads back the operand that the encoder wrote. -/
theorem decodeOfEncodeIsIdentity : Obligations.DecodeOfEncodeIsIdentity := by
  intro i hi
  cases i with
  | edge now => exact decodeStamp_stampBytes .edge now .edge
  | edgeSync now => exact decodeStamp_stampBytes .edgeSync now .edgeSync
  | edgeLost now => exact decodeStamp_stampBytes .edgeLost now .edgeLost
  | edgeChan now => exact decodeStamp_stampBytes .edgeChan now .edgeChan
  | rdsnap | reset => rfl
  | encode f => exact decodeFields_fieldsBytes .encode f
  | decode rx p => exact decodeMeta_payload8 .decode .decode hi
  | decodeRtr rx => exact decodeMeta_payload0 .decodeRtr .decodeRtr hi
  | decodeShort rx => exact decodeMeta_payload0 .decodeShort .decodeShort hi
  | decodePart rx p => exact decodeMeta_payload4 .decodePart .decodePart hi
  | decodeFull rx p => exact decodeMeta_payload8 .decodeFull .decodeFull hi
  | pulse w => exact decodeStamp_stampBytes .pulse w .pulse
  | train g ws => exact decodeTrain_flatMap g ws

/-! ### From accepted bytes to the operand they spell -/

theorem decodeStamp_ok {op : Op} {bytes : List Byte} {mk : Stamp → Instr} {i : Instr}
    (h : decodeStamp op bytes mk = .ok i) : ∃ v, i = mk v ∧ stampBytes v = bytes := by
  unfold decodeStamp at h
  split at h
  · cases h; exact ⟨_, rfl, stampBytes_stampOfBytes _ _ _ _⟩
  · cases h

theorem decodeNone_ok {op : Op} {bytes : List Byte} {i j : Instr}
    (h : decodeNone op bytes j = .ok i) : i = j ∧ bytes = [] := by
  unfold decodeNone at h
  split at h
  · cases h; exact ⟨rfl, rfl⟩
  · cases h

theorem decodeFields_ok {op : Op} {bytes : List Byte} {i : Instr}
    (h : decodeFields op bytes = .ok i) : ∃ f, i = .encode f ∧ fieldsBytes f = bytes := by
  unfold decodeFields at h
  split at h
  · cases h; exact ⟨_, rfl, by simp [fieldsBytes]⟩
  · cases h

/-- Accepted metadata is a word with its unused bit clear, and what it selects is well formed. -/
theorem decodeMeta_ok {op : Op} {bytes : List Byte} {mk : RxMeta → List Byte → Option Instr} {i : Instr}
    (h : decodeMeta op bytes mk = .ok i) :
    ∃ rx payload, bytes = metaBytes rx.word ++ payload ∧ mk rx payload = some i ∧ i.wellFormed = true := by
  unfold decodeMeta at h
  split at h
  next a b c d e payload =>
    split_ifs at h with hreserved
    split at h
    · cases h
    next j hmk =>
      split_ifs at h with hj
      cases h
      refine ⟨_, payload, ?_, hmk, hj⟩
      rw [RxMeta.word_ofWord _ (by simpa using hreserved), metaBytes_metaOfBytes]; rfl
  · cases h

theorem payload8_some {mk : Payload → Instr} {bytes : List Byte} {i : Instr}
    (h : payload8 mk bytes = some i) : ∃ p : Payload, i = mk p ∧ bytes = p.toList := by
  unfold payload8 at h
  split at h
  · cases h; exact ⟨_, rfl, rfl⟩
  · cases h

theorem payload4_some {mk : PayloadHead → Instr} {bytes : List Byte} {i : Instr}
    (h : payload4 mk bytes = some i) : ∃ p : PayloadHead, i = mk p ∧ bytes = p.toList := by
  unfold payload4 at h
  split at h
  · cases h; exact ⟨_, rfl, rfl⟩
  · cases h

theorem payload0_some {i j : Instr} {bytes : List Byte} (h : payload0 j bytes = some i) :
    i = j ∧ bytes = [] := by
  unfold payload0 at h
  split at h
  · cases h; exact ⟨rfl, rfl⟩
  · cases h

/-- The operand of a `DECODE` row with eight payload bytes. -/
theorem decodeMeta_payload8_ok {op : Op} {bytes : List Byte} {mk : RxMeta → Payload → Instr} {i : Instr}
    (h : decodeMeta op bytes (fun rx => payload8 (mk rx)) = .ok i) :
    ∃ rx p, i = mk rx p ∧ bytes = metaBytes rx.word ++ p.toList ∧ i.wellFormed = true := by
  obtain ⟨rx, payload, hbytes, hmk, hi⟩ := decodeMeta_ok h
  obtain ⟨p, hp, hpayload⟩ := payload8_some hmk
  exact ⟨rx, p, hp, hpayload ▸ hbytes, hi⟩

/-- The operand of a `DECODE` row with four payload bytes. -/
theorem decodeMeta_payload4_ok {op : Op} {bytes : List Byte} {mk : RxMeta → PayloadHead → Instr}
    {i : Instr} (h : decodeMeta op bytes (fun rx => payload4 (mk rx)) = .ok i) :
    ∃ rx p, i = mk rx p ∧ bytes = metaBytes rx.word ++ p.toList ∧ i.wellFormed = true := by
  obtain ⟨rx, payload, hbytes, hmk, hi⟩ := decodeMeta_ok h
  obtain ⟨p, hp, hpayload⟩ := payload4_some hmk
  exact ⟨rx, p, hp, hpayload ▸ hbytes, hi⟩

/-- The operand of a `DECODE` row without payload bytes. -/
theorem decodeMeta_payload0_ok {op : Op} {bytes : List Byte} {mk : RxMeta → Instr} {i : Instr}
    (h : decodeMeta op bytes (fun rx => payload0 (mk rx)) = .ok i) :
    ∃ rx, i = mk rx ∧ bytes = metaBytes rx.word ∧ i.wellFormed = true := by
  obtain ⟨rx, payload, hbytes, hmk, hi⟩ := decodeMeta_ok h
  obtain ⟨hrx, rfl⟩ := payload0_some hmk
  exact ⟨rx, hrx, by simpa using hbytes, hi⟩

theorem stampsOfBytes_some {bytes : List Byte} {ws : List Stamp} (h : stampsOfBytes bytes = some ws) :
    ws.flatMap stampBytes = bytes := by
  induction bytes using stampsOfBytes.induct generalizing ws with
  | case1 => simp only [stampsOfBytes] at h; cases h; rfl
  | case2 a b c d rest ih =>
    rw [stampsOfBytes, Option.map_eq_some_iff] at h
    obtain ⟨vs, hvs, rfl⟩ := h
    rw [List.flatMap_cons, stampBytes_stampOfBytes, ih hvs]; rfl
  | case3 bytes hnil hcons => rw [stampsOfBytes] at h <;> simp_all

theorem decodeTrain_ok {bytes : List Byte} {i : Instr} (h : decodeTrain bytes = .ok i) :
    ∃ g ws, i = .train g ws ∧ (g :: ws).flatMap stampBytes = bytes := by
  unfold decodeTrain at h
  split at h
  next g ws hws => cases h; exact ⟨g, ws, rfl, stampsOfBytes_some hws⟩
  · cases h

/-- Settles O8, port by port: what a format accepts is spelled by the operand it reads. -/
theorem encodeOfDecodeIsIdentity : Obligations.EncodeOfDecodeIsIdentity := by
  intro ⟨op, bytes⟩ i h
  cases op with
  | edge | edgeSync | edgeLost | edgeChan | pulse =>
    obtain ⟨v, rfl, rfl⟩ := decodeStamp_ok h; exact ⟨rfl, rfl⟩
  | rdsnap | reset => obtain ⟨rfl, rfl⟩ := decodeNone_ok h; exact ⟨rfl, rfl⟩
  | encode => obtain ⟨f, rfl, rfl⟩ := decodeFields_ok h; exact ⟨rfl, rfl⟩
  | decode | decodeFull => obtain ⟨rx, p, rfl, rfl, hi⟩ := decodeMeta_payload8_ok h; exact ⟨hi, rfl⟩
  | decodeRtr | decodeShort => obtain ⟨rx, rfl, rfl, hi⟩ := decodeMeta_payload0_ok h; exact ⟨hi, rfl⟩
  | decodePart => obtain ⟨rx, p, rfl, rfl, hi⟩ := decodeMeta_payload4_ok h; exact ⟨hi, rfl⟩
  | train => obtain ⟨g, ws, rfl, rfl⟩ := decodeTrain_ok h; exact ⟨rfl, rfl⟩

/-! ### Table words -/

/-- Settles O9: four closed words, evaluated. -/
theorem wordsOfTheSpecDecode : Obligations.WordsOfTheSpecDecode := by
  refine ⟨?_, ?_, ?_, ?_⟩ <;> decide

theorem decodeTableWord_some {nbits w : Nat} {i : Instr} (h : decodeTableWord nbits w = some i) :
    decode (tableRequest nbits w) = .ok i := by
  unfold decodeTableWord at h
  split at h
  next hdecode => cases h; exact hdecode
  · cases h

/-- Settles O10: the word's request is the first of the trace. -/
theorem tableWordIsPerformedNext : Obligations.TableWordIsPerformedNext :=
  fun _ _ _ _ h => Machine.step_of_request rfl (decodeTableWord_some h)

end Sys2Proof
end

