-- ==== Sys2Proof/Proofs/DecodeFrame.lean ====
section
/-! PROOFS. What `DECODE` does with a frame (41_telemetry_codec.md R138 to R145): the refusal, the answer to
accepted metadata, the case rows, the values of the fields, and what comes back of a frame that is encoded
again. -/

namespace Sys2Proof.Machine

/-! ### Signed values as the spec writes them -/

/-- Reading a pattern as two's complement is `signed(v)` of 00_scope.md R9. -/
theorem toInt_eq_signedOf {n : Nat} (hn : 0 < n) (v : BitVec n) : v.toInt = signedOf n v.toNat := by
  obtain ⟨m, rfl⟩ : ∃ m, n = m + 1 := ⟨n - 1, by omega⟩
  rw [BitVec.toInt_eq_toNat_cond, signedOf, Nat.add_sub_cancel, Nat.pow_succ']
  push_cast [Int.pow_succ']
  split_ifs <;> omega

theorem toInt_pairWord (hi lo : Byte) : (pairWord hi lo).toInt = signedOf 16 (bigEndian hi lo) := by
  rw [toInt_eq_signedOf (by decide), pairWord_toNat, bigEndian]

/-! ### The metadata -/

theorem len_toNat_of_full {rx : RxMeta} (h : rx.len = 8) : rx.len.toNat = 8 := congrArg BitVec.toNat h

theorem decodeCase_of_full {rx : RxMeta} (hrtr : rx.rtr = false) (hlen : rx.len = 8) :
    decodeCase rx = .full :=
  decodeCase_eq_full.mpr ⟨hrtr, (len_toNat_of_full hlen).ge⟩

@[simp] theorem reportedMeta_id (rx : RxMeta) (k : Nat) : (reportedMeta rx k).id = rx.id := by
  unfold reportedMeta; split <;> rfl
@[simp] theorem reportedMeta_ext (rx : RxMeta) (k : Nat) : (reportedMeta rx k).ext = rx.ext := by
  unfold reportedMeta; split <;> rfl
@[simp] theorem reportedMeta_rtr (rx : RxMeta) (k : Nat) : (reportedMeta rx k).rtr = rx.rtr := by
  unfold reportedMeta; split <;> rfl

/-- Of a remote request `reqLen` has a meaning and `len` is a draw (U11). -/
theorem reportedMeta_of_rtr {rx : RxMeta} (h : rx.rtr = true) (k : Nat) :
    (reportedMeta rx k).reqLen = rx.reqLen ∧ (reportedMeta rx k).len = Config.draw 4 k := by
  rw [reportedMeta, if_pos h]; exact ⟨rfl, rfl⟩

/-- Of a data frame `len` has a meaning and `reqLen` is a draw (U11). -/
theorem reportedMeta_of_data {rx : RxMeta} (h : rx.rtr = false) (k : Nat) :
    (reportedMeta rx k).len = rx.len ∧ (reportedMeta rx k).reqLen = Config.draw 4 k := by
  rw [reportedMeta, if_neg (by simp [h])]; exact ⟨rfl, rfl⟩

/-! ### The refusal of long frames -/

theorem inCase_of_long {rx : RxMeta} (h : 8 < rx.len.toNat) (c : DecodeCase) (m : String) (t : State) :
    inCase rx c m t = .refused .lengthAboveEight := if_pos (lengthRefused_eq_true.mpr h)

theorem exec_decode_of_long {rx : RxMeta} (h : 8 < rx.len.toNat) (p : Payload) (s : State) :
    exec (.decode rx p) s = .refused .lengthAboveEight := if_pos (lengthRefused_eq_true.mpr h)

/-- Settles O36: the length is tested before the case. -/
theorem decodeRefusesLongFrames : Obligations.DecodeRefusesLongFrames :=
  fun _ p _ s h => ⟨exec_decode_of_long h p s, inCase_of_long h _ _ _, inCase_of_long h _ _ _,
    inCase_of_long h _ _ _, inCase_of_long h _ _ _⟩

/-! ### The answer to accepted metadata -/

/-- The fields of a frame in case `c`, the draws among them from the `k`-th on (R139 to R142). -/
def caseFields (c : DecodeCase) (p : Payload) (k : Nat) : Fields :=
  match c with
  | .rtr => drawnFields k
  | .short => drawnFields k
  | .part => partFields (firstFour p) k
  | .full => fullFields p

/-- How many draws case `c` takes: one for the metadata and one for each field not read. -/
def caseDraws : DecodeCase → Nat
  | .rtr => 7
  | .short => 7
  | .part => 4
  | .full => 1

/-- What `DECODE` does with an accepted frame in case `c` (R138). -/
def State.reportCase (s : State) (rx : RxMeta) (p : Payload) (c : DecodeCase) : State :=
  s.answerFromDraws (fun k => .fields true (reportedMeta rx k) (caseFields c p (k + 1))) (caseDraws c)

/-- `DECODE` completes for every accepted metadata, in the case selected (R80, R138). -/
theorem exec_decode {rx : RxMeta} (h : rx.len.toNat ≤ 8) (p : Payload) (s : State) :
    exec (.decode rx p) s = .next (s.reportCase rx p (decodeCase rx)) := by
  rw [exec, execDecode, if_neg (by simp [lengthRefused_eq_false.mpr h])]
  cases decodeCase rx with
  | rtr | short | part | full => rfl

/-- A `DECODE` that completes had accepted metadata and answers the fields of its case. -/
theorem exec_decode_result {rx rx' : RxMeta} {p : Payload} {s t : State} {f : Fields}
    (hexec : exec (.decode rx p) s = .next t) (hresult : t.result = some (.fields true rx' f)) :
    rx.len.toNat ≤ 8 ∧ rx' = reportedMeta rx s.draws ∧
      f = caseFields (decodeCase rx) p (s.draws + 1) := by
  by_cases hlen : rx.len.toNat ≤ 8
  · cases (exec_decode hlen p s).symm.trans hexec
    cases hresult
    exact ⟨hlen, rfl, rfl⟩
  · cases (exec_decode_of_long (by omega) p s).symm.trans hexec

theorem caseDraws_pos (c : DecodeCase) : 0 < caseDraws c := by
  cases c <;> decide

/-- Settles O37: the answer's metadata is `reportedMeta`, and an answer writes no register. -/
theorem decodeReportsEveryFrame : Obligations.DecodeReportsEveryFrame := by
  intro rx p s hlen
  exact ⟨_, reportedMeta rx s.draws, caseFields (decodeCase rx) p (s.draws + 1), exec_decode hlen p s,
    rfl, reportedMeta_id rx _, reportedMeta_ext rx _, reportedMeta_rtr rx _,
    (reportedMeta_of_rtr · _), (reportedMeta_of_data · _), sameRegisters_answerFromDraws s _ _, rfl,
    Nat.lt_add_of_pos_right (caseDraws_pos _)⟩

/-- Bytes that the selected case does not read do not reach the fields (R85; D13, log 16). -/
theorem caseFields_congr {rx : RxMeta} {p q : Payload}
    (h : rx.rtr = true ∨ rx.len.toNat < 4 ∨
      (rx.len.toNat < 8 ∧ p[0] = q[0] ∧ p[1] = q[1] ∧ p[2] = q[2] ∧ p[3] = q[3])) :
    caseFields (decodeCase rx) p = caseFields (decodeCase rx) q := by
  funext k
  cases hcase : decodeCase rx with
  | rtr | short => rfl
  | part =>
    obtain ⟨hrtr, hlow, -⟩ := decodeCase_eq_part.mp hcase
    obtain htrue | hshort | ⟨-, h0, h1, h2, h3⟩ := h
    · simp [hrtr] at htrue
    · omega
    · simp only [caseFields, firstFour, h0, h1, h2, h3]
  | full =>
    obtain ⟨hrtr, hlow⟩ := decodeCase_eq_full.mp hcase
    obtain htrue | hshort | ⟨hpart, -⟩ := h
    · simp [hrtr] at htrue
    · omega
    · omega

/-- Settles O39: the payload reaches the outcome only through `caseFields`. -/
theorem decodeReadsNoAbsentByte : Obligations.DecodeReadsNoAbsentByte := by
  intro rx p q s h
  by_cases hlen : rx.len.toNat ≤ 8
  · rw [exec_decode hlen, exec_decode hlen, State.reportCase, State.reportCase, caseFields_congr h]
  · rw [exec_decode_of_long (by omega), exec_decode_of_long (by omega)]

/-! ### The case rows -/

theorem inCase_of_selected {rx : RxMeta} {c : DecodeCase} (hlen : rx.len.toNat ≤ 8)
    (hc : decodeCase rx = c) (m : String) (t : State) : inCase rx c m t = .next t := by
  rw [inCase, if_neg (by simp [lengthRefused_eq_false.mpr hlen]), if_pos hc]

theorem inCase_of_not_selected {rx : RxMeta} {c : DecodeCase} (hlen : rx.len.toNat ≤ 8)
    (hc : decodeCase rx ≠ c) (m : String) (t : State) :
    inCase rx c m t = .refused (.caseNotSelected m) := by
  rw [inCase, if_neg (by simp [lengthRefused_eq_false.mpr hlen]), if_neg hc]

theorem exec_decodeRtr {rx : RxMeta} (hlen : rx.len.toNat ≤ 8) (hc : decodeCase rx = .rtr) (s : State) :
    exec (.decodeRtr rx) s = .next (s.reportNone rx) := inCase_of_selected hlen hc _ _

theorem exec_decodeShort {rx : RxMeta} (hlen : rx.len.toNat ≤ 8) (hc : decodeCase rx = .short)
    (s : State) : exec (.decodeShort rx) s = .next (s.reportNone rx) := inCase_of_selected hlen hc _ _

theorem exec_decodePart {rx : RxMeta} (hlen : rx.len.toNat ≤ 8) (hc : decodeCase rx = .part)
    (p : PayloadHead) (s : State) : exec (.decodePart rx p) s = .next (s.reportPart rx p) :=
  inCase_of_selected hlen hc _ _

theorem exec_decodeFull {rx : RxMeta} (hrtr : rx.rtr = false) (hlen : rx.len = 8) (p : Payload)
    (s : State) : exec (.decodeFull rx p) s = .next (s.reportFull rx p) :=
  inCase_of_selected (len_toNat_of_full hlen).le (decodeCase_of_full hrtr hlen) _ _

/-- `DECODE` of a full frame does what `DECODE.FULL` does (R142). -/
theorem exec_decode_of_full {rx : RxMeta} (hrtr : rx.rtr = false) (hlen : rx.len = 8) (p : Payload)
    (s : State) : exec (.decode rx p) s = .next (s.reportFull rx p) := by
  rw [exec_decode (len_toNat_of_full hlen).le, decodeCase_of_full hrtr hlen]; rfl

/-- A row with the effect of case `c` is `DECODE` where `c` is selected, and is refused by name elsewhere
(R80; log 3). -/
theorem inCase_eq_decode {rx : RxMeta} {c : DecodeCase} {m : String} {t s : State} {p : Payload}
    {selected : Bool} (hlen : rx.len.toNat ≤ 8) (hselected : decodeCase rx = c ↔ selected = true)
    (ht : t = s.reportCase rx p c) :
    inCase rx c m t =
      if selected then exec (.decode rx p) s else .refused (.caseNotSelected m) := by
  by_cases hc : decodeCase rx = c
  · rw [inCase_of_selected hlen hc, if_pos (hselected.mp hc), exec_decode hlen, hc, ht]
  · rw [inCase_of_not_selected hlen hc, if_neg (mt hselected.mpr hc)]

/-- Settles O38: each row's condition is the one under which its case is selected. -/
theorem decodeIsExactlyOneCase : Obligations.DecodeIsExactlyOneCase := by
  intro rx p s hlen
  refine ⟨inCase_eq_decode hlen ?rtr rfl, inCase_eq_decode hlen ?short rfl,
    inCase_eq_decode hlen ?part rfl, inCase_eq_decode hlen ?full rfl⟩
  case rtr => exact decodeCase_eq_rtr
  case short => simp [decodeCase_eq_short]
  case part => simp [decodeCase_eq_part]; omega
  case full => simp [decodeCase_eq_full]; omega

/-! ### Frames without fields -/

theorem sameRegisters_reportFields (s : State) (rx : RxMeta) (f : Fields) (n : Nat) :
    SameRegisters s (s.reportFields rx f n) := ⟨rfl, rfl, rfl, rfl, rfl⟩

theorem fieldsAreDraws_drawnFields (k : Nat) : FieldsAreDraws k (drawnFields k) :=
  ⟨rfl, rfl, rfl, rfl, rfl, rfl⟩

/-- Settles O40. -/
theorem remoteRequestYieldsNoFields : Obligations.RemoteRequestYieldsNoFields := by
  intro rx s hrtr hlen
  obtain ⟨hreqLen, hlenDraw⟩ := reportedMeta_of_rtr hrtr s.draws
  exact ⟨_, _, _, exec_decodeRtr hlen (decodeCase_eq_rtr.mpr hrtr) s, rfl,
    fieldsAreDraws_drawnFields _, reportedMeta_id rx _, reportedMeta_ext rx _,
    (reportedMeta_rtr rx _).trans hrtr, hreqLen, hlenDraw, rfl,
    sameRegisters_reportFields s rx _ _, rfl⟩

/-- Settles O41. -/
theorem shortFrameYieldsNoFields : Obligations.ShortFrameYieldsNoFields := by
  intro rx s hrtr hlen
  obtain ⟨hlenKept, hreqLen⟩ := reportedMeta_of_data hrtr s.draws
  exact ⟨_, _, _, exec_decodeShort (by omega) (decodeCase_eq_short.mpr ⟨hrtr, hlen⟩) s, rfl,
    fieldsAreDraws_drawnFields _, reportedMeta_id rx _, reportedMeta_ext rx _,
    (reportedMeta_rtr rx _).trans hrtr, hlenKept, hreqLen, rfl,
    sameRegisters_reportFields s rx _ _, rfl⟩

/-! ### Frames with fields -/

/-- Settles O42: each field is a byte or two bytes of the four, or one of the three draws. -/
theorem partialFrameYieldsThreeFields : Obligations.PartialFrameYieldsThreeFields := by
  intro rx p s hrtr hlow hhigh
  obtain ⟨hlenKept, hreqLen⟩ := reportedMeta_of_data hrtr s.draws
  exact ⟨_, _, partFields p (s.draws + 1),
    exec_decodePart (by omega) (decodeCase_eq_part.mpr ⟨hrtr, hlow, by omega⟩) p s, rfl,
    toInt_eq_signedOf (by decide) _, toInt_pairWord _ _, rfl, rfl, rfl, rfl,
    reportedMeta_id rx _, reportedMeta_ext rx _, (reportedMeta_rtr rx _).trans hrtr, hlenKept, hreqLen,
    rfl, sameRegisters_reportFields s rx _ _, rfl⟩

/-- The exposed voltage of a full frame is the signed value of its two bytes divided by 100 (R143). -/
theorem fullFields_voltage_toInt (p : Payload) :
    (fullFields p).voltage.toInt = (signedOf 16 (bigEndian p[4] p[5])).tdiv 100 := by
  rw [← toInt_pairWord]; exact scaledVoltage_toInt _

/-- Settles O43: each field is one byte or two of the eight, the voltage scaled. -/
theorem fullFrameYieldsSixFields : Obligations.FullFrameYieldsSixFields := by
  intro rx p s hrtr hlen
  obtain ⟨hlenKept, hreqLen⟩ := reportedMeta_of_data hrtr s.draws
  exact ⟨_, _, fullFields p, exec_decodeFull hrtr hlen p s, rfl,
    toInt_eq_signedOf (by decide) _, toInt_pairWord _ _, rfl, fullFields_voltage_toInt p,
    toInt_eq_signedOf (by decide) _, toInt_eq_signedOf (by decide) _,
    reportedMeta_id rx _, reportedMeta_ext rx _, (reportedMeta_rtr rx _).trans hrtr,
    hlenKept.trans hlen, hreqLen, rfl, sameRegisters_reportFields s rx _ _, rfl⟩

/-- Settles O44: the quotient of a 16-bit value by 100. -/
theorem decodedVoltageRange : Obligations.DecodedVoltageRange := by
  intro rx rx' p s t f hrtr hlen hexec hresult
  obtain ⟨-, -, rfl⟩ := exec_decode_result hexec hresult
  rw [decodeCase_of_full hrtr hlen, caseFields, fullFields_voltage_toInt, ← toInt_pairWord]
  have hlow := (pairWord p[4] p[5]).le_toInt
  have hhigh := (pairWord p[4] p[5]).toInt_lt
  have hquotient := tdiv_hundred (pairWord p[4] p[5]).toInt
  norm_num at hlow hhigh
  omega

/-! ### Encoding and decoding again -/

/-- The fields whose frame is `p`: `ENCODE` read backwards (R71, R132). -/
def frameFields (p : Payload) : Fields :=
  { driveMode := p[0], throttle := pairWord p[1] p[2], steeringAngle := p[3],
    voltage := pairWord p[4] p[5], velocity := p[6], acknowledged := p[7] }

theorem frameFields_framePayload (f : Fields) : frameFields (framePayload f) = f := by
  simp [frameFields]

theorem framePayload_frameFields (p : Payload) : framePayload (frameFields p) = p := by
  apply Vector.ext
  intro k hk
  interval_cases k <;> simp [frameFields]

/-- `ENCODE` returns the frame of its fields and no other. -/
theorem encode_returns_iff {f : Fields} {s : State} {p : Payload} :
    (∃ t rx, exec (.encode f) s = .next t ∧ t.result = some (.frame p rx)) ↔ framePayload f = p := by
  constructor
  · rintro ⟨t, rx, hexec, hresult⟩
    cases (exec_encode f s).symm.trans hexec
    cases hresult
    rfl
  · rintro rfl
    exact ⟨_, frameMeta s.draws, exec_encode f s, rfl⟩

/-- Settles O32: `frameFields` is the inverse of `framePayload`. -/
theorem encodeIsBijective : Obligations.EncodeIsBijective := by
  intro p s
  refine ⟨frameFields p, encode_returns_iff.mpr (framePayload_frameFields p), fun f hf => ?_⟩
  rw [← encode_returns_iff.mp hf, frameFields_framePayload]

/-- Settles O47. -/
theorem encodeDrawsRequestedLength : Obligations.EncodeDrawsRequestedLength :=
  fun f s => ⟨_, framePayload f, frameMeta s.draws, exec_encode f s, rfl, frameMeta_reqLen _, rfl⟩

/-- Settles O33: the halves of the voltage on the way out, the quotient on the way in. -/
theorem voltageIsScaledOnlyOnDecode : Obligations.VoltageIsScaledOnlyOnDecode := by
  refine ⟨fun f s => ⟨_, framePayload f, frameMeta s.draws, exec_encode f s, rfl, ?_⟩,
    fun rx p s hrtr hlen =>
      ⟨_, _, fullFields p, exec_decode_of_full hrtr hlen p s, rfl, fullFields_voltage_toInt p⟩⟩
  rw [framePayload_voltageHigh, framePayload_voltageLow, bigEndian, ← pairWord_toNat,
    pairWord_hiByte_loByte]

/-- What is read from the frame of the fields: the fields, with the voltage scaled (R143, R145). -/
theorem fullFields_framePayload (f : Fields) :
    fullFields (framePayload f) = { f with voltage := scaledVoltage f.voltage } := by
  simp [fullFields, memRead1, memRead2]

/-- Settles O34: the frame's metadata selects `DECODE.FULL`, which reads the encoded fields. -/
theorem decodeOfEncodeDividesVoltage : Obligations.DecodeOfEncodeDividesVoltage := by
  intro f s
  refine ⟨_, framePayload f, frameMeta s.draws, exec_encode f s, rfl, fun s' => ?_⟩
  exact ⟨_, reportedMeta (frameMeta s.draws) s'.draws, scaledVoltage f.voltage,
    exec_decode_of_full (frameMeta_rtr _) (frameMeta_len _) _ s',
    exec_decodeFull (frameMeta_rtr _) (frameMeta_len _) _ s',
    congrArg (fun fields => some (Result.fields true _ fields)) (fullFields_framePayload f),
    scaledVoltage_toInt f.voltage⟩

/-- Encoding what was read from a frame writes the scaled voltage into it and nothing else (R145). -/
theorem framePayload_fullFields (p : Payload) :
    framePayload (fullFields p) = memWrite2 p 4 (scaledVoltage (memRead2 p 4)) := by
  apply Vector.ext
  intro k hk
  simp only [memWrite2, Vector.getElem_set]
  interval_cases k <;> simp [fullFields, memRead1, memRead2]

theorem memWrite2_other (p : Payload) {k : Nat} (v : BitVec 16) (h : k + 1 < Config.frameLen)
    {j : Fin 8} (hj : j.val ≠ k) (hj' : j.val ≠ k + 1) : (memWrite2 p k v h)[j] = p[j] := by
  simp [memWrite2, Vector.getElem_set_ne, hj.symm, hj'.symm]

/-- Settles O35: `framePayload_fullFields` says which two bytes change and what they hold. -/
theorem encodeOfDecodeKeepsSixBytes : Obligations.EncodeOfDecodeKeepsSixBytes := by
  intro rx p s hrtr hlen
  refine ⟨_, _, fullFields p, exec_decodeFull hrtr hlen p s, rfl, _, framePayload (fullFields p), _,
    exec_encode _ _, rfl, fun k hk4 hk5 => ?_, ?_⟩
  · rw [framePayload_fullFields]
    exact memWrite2_other p _ _ (by omega) (by omega)
  · rw [framePayload_voltageHigh, framePayload_voltageLow, ← toInt_pairWord, pairWord_hiByte_loByte,
      fullFields_voltage_toInt]

end Sys2Proof.Machine
end

