-- ==== Sys2Proof/Proofs/Stops.lean ====
section
/-! PROOFS. The names under which a step stops (30_encoding.md R79, R80, R84 (a); logs 2, 3, 11). -/

namespace Sys2Proof.Machine

/-- Why a case row of `EDGE` is refused. -/
theorem inEdgeCase_refused {s t : State} {now : Stamp} {c : EdgeCase} {m : String} {q : Refusal}
    (h : inEdgeCase s now c m t = .refused q) :
    edgeCase (s.edgeWidth now) ≠ c ∧ q = .caseNotSelected m := by
  unfold inEdgeCase at h
  split_ifs at h with hc
  cases h
  exact ⟨hc, rfl⟩

theorem exec_decode_refused {rx : RxMeta} {p : Payload} {s : State} {q : Refusal}
    (h : exec (.decode rx p) s = .refused q) : 8 < rx.len.toNat ∧ q = .lengthAboveEight := by
  by_cases hlen : rx.len.toNat ≤ 8
  · cases (exec_decode hlen p s).symm.trans h
  · have hlong : 8 < rx.len.toNat := by omega
    cases (exec_decode_of_long hlong p s).symm.trans h
    exact ⟨hlong, rfl⟩

/-- A row whose metadata selects its case is not refused. -/
theorem inCase_not_refused {rx : RxMeta} {c : DecodeCase} {m : String} {t : State} {q : Refusal}
    (hlen : rx.len.toNat ≤ 8) (hc : decodeCase rx = c) : inCase rx c m t ≠ .refused q := by
  rw [inCase_of_selected hlen hc]
  intro h
  cases h

/-- Settles O6: a refused request is no operation, or it decodes to an operation, well formed by
`encodeOfDecodeIsIdentity`, whose meaning is refused; of the well-formed operations only `DECODE` and the
case rows of `EDGE` can be. -/
theorem stepStopsOnlyByName : Obligations.StepStopsOnlyByName := by
  intro s q hstep
  obtain ⟨r, rest, htrace, herror | ⟨i, hdecode, hexec⟩⟩ := step_refused hstep
  · exact ⟨r, rest, htrace, .inl herror⟩
  refine ⟨r, rest, htrace, .inr ?_⟩
  obtain ⟨hwellFormed, -⟩ := encodeOfDecodeIsIdentity r i hdecode
  cases i with
  | decode rx p =>
    obtain ⟨hlong, hq⟩ := exec_decode_refused hexec
    exact .inl ⟨rx, p, hdecode, hlong, hq⟩
  | edgeSync now =>
    obtain ⟨hcase, hq⟩ := inEdgeCase_refused hexec
    exact .inr (.inl ⟨now, hdecode, mt edgeCase_eq_sync.mpr hcase, hq⟩)
  | edgeLost now =>
    obtain ⟨hcase, hq⟩ := inEdgeCase_refused hexec
    exact .inr (.inr (.inl ⟨now, hdecode, mt edgeCase_eq_lost.mpr hcase, hq⟩))
  | edgeChan now =>
    obtain ⟨hcase, hq⟩ := inEdgeCase_refused hexec
    exact .inr (.inr (.inr ⟨now, hdecode, mt edgeCase_eq_chan.mpr hcase, hq⟩))
  | decodeRtr rx =>
    obtain ⟨hrtr, hlen⟩ := wellFormed_decodeRtr.mp hwellFormed
    exact absurd hexec (inCase_not_refused hlen (decodeCase_eq_rtr.mpr hrtr))
  | decodeShort rx =>
    obtain ⟨hrtr, hlen⟩ := wellFormed_decodeShort.mp hwellFormed
    exact absurd hexec (inCase_not_refused (by omega) (decodeCase_eq_short.mpr ⟨hrtr, hlen⟩))
  | decodePart rx p =>
    obtain ⟨hrtr, hlow, hhigh⟩ := wellFormed_decodePart.mp hwellFormed
    exact absurd hexec (inCase_not_refused hhigh.le (decodeCase_eq_part.mpr ⟨hrtr, hlow, hhigh⟩))
  | decodeFull rx p =>
    obtain ⟨hrtr, hlen⟩ := wellFormed_decodeFull.mp hwellFormed
    exact absurd hexec (inCase_not_refused hlen.le (decodeCase_eq_full.mpr ⟨hrtr, hlen.ge⟩))
  | edge | rdsnap | reset | encode | pulse | train => cases hexec

end Sys2Proof.Machine
end

