-- ==== Sys2Proof/Proofs/Trains.lean ====
section
/-! PROOFS. Runs of pulses (30_encoding.md R87; 40_pulse_decoder.md section 5; 70_reset_and_hazards.md
section 3): a train is its pulses one by one, what a run of channel widths captures, and what available data
says of the run before it. -/

namespace Sys2Proof.Machine

/-! ### A train as one operation and as many -/

theorem pulseEdges_cons (s : State) (w : Stamp) (ws : List Stamp) :
    s.pulseEdges (w :: ws) = (s.pulseEdge w).pulseEdges ws := rfl

theorem pulseEdges_concat (s : State) (ws : List Stamp) (w : Stamp) :
    s.pulseEdges (ws ++ [w]) = (s.pulseEdges ws).pulseEdge w := pulseEdges_append s ws [w]

@[simp] theorem pulseEdges_trace (s : State) (ws : List Stamp) : (s.pulseEdges ws).trace = s.trace := by
  induction ws generalizing s with
  | nil => rfl
  | cons w ws ih => rw [pulseEdges_cons, ih, pulseEdge_trace]

@[simp] theorem pulseEdges_draws (s : State) (ws : List Stamp) : (s.pulseEdges ws).draws = s.draws := by
  induction ws generalizing s with
  | nil => rfl
  | cons w ws ih => rw [pulseEdges_cons, ih, pulseEdge_draws]

theorem pulseEdges_lastEdge (s : State) (ws : List Stamp) :
    (s.pulseEdges ws).lastEdge = ws.foldl (· + ·) s.lastEdge := by
  induction ws generalizing s with
  | nil => rfl
  | cons w ws ih => rw [pulseEdges_cons, ih, pulseEdge_lastEdge, List.foldl_cons]

/-- The last pulse of a run leaves no result. -/
theorem pulseEdges_result (s : State) {ws : List Stamp} (h : ws ≠ []) :
    (s.pulseEdges ws).result = none := by
  rw [← List.dropLast_append_getLast h, pulseEdges_concat, pulseEdge_result]

theorem returnsNothing_pulseEdges (s : State) (g : Stamp) (ws : List Stamp) :
    ReturnsNothing s (s.pulseEdges (g :: ws)) :=
  ⟨pulseEdges_trace s _, pulseEdges_draws s _, pulseEdges_result s (List.cons_ne_nil g ws)⟩

/-- An edge does not look at the requests still to come. -/
theorem edge_withTrace (s : State) (now : Stamp) (rest : List Request) :
    ({ s with trace := rest } : State).edge now = { s.edge now with trace := rest } := by
  have hwidth : ({ s with trace := rest } : State).edgeWidth now = s.edgeWidth now := rfl
  cases hcase : edgeCase (s.edgeWidth now) with
  | sync => rw [edge_of_sync hcase, edge_of_sync (hwidth ▸ hcase)]; rfl
  | lost => rw [edge_of_lost hcase, edge_of_lost (hwidth ▸ hcase)]; rfl
  | chan =>
    rw [edge_of_chan hcase, edge_of_chan (hwidth ▸ hcase), State.chanEdge, State.chanEdge, hwidth]
    by_cases hidx : s.idx.toNat < 8
    · rw [capture_inBounds _ hidx, capture_inBounds _ (by exact hidx)]
      simp [State.storeAtIdx, hidx]; rfl
    · rw [capture_outOfBounds _ hidx, capture_outOfBounds _ (by exact hidx)]; rfl

theorem pulseEdge_withTrace (s : State) (w : Stamp) (rest : List Request) :
    ({ s with trace := rest } : State).pulseEdge w = { s.pulseEdge w with trace := rest } :=
  edge_withTrace s _ rest

theorem run_succ_of_next {M : Host.Core} {k : Nat} {s t : M.State} (h : M.step s = .next t) :
    M.run (k + 1) s = M.run k t := by
  rw [Host.Core.run, h]

/-- Pulses requested one after another, one step for each, are the run of pulses. -/
theorem run_pulses (ws : List Stamp) (s : State) (rest : List Request)
    (htrace : s.trace = ws.map (fun w => encode (.pulse w)) ++ rest) :
    Sys2Proof.core.run ws.length s = .next (({ s with trace := rest } : State).pulseEdges ws) := by
  induction ws generalizing s with
  | nil => rw [List.map_nil, List.nil_append] at htrace; rw [← htrace]; rfl
  | cons w ws ih =>
    have hstep : step s =
        .next (({ s with trace := ws.map (fun v => encode (.pulse v)) ++ rest } : State).pulseEdge w) :=
      step_of_request htrace (decodeOfEncodeIsIdentity (.pulse w) rfl)
    calc Sys2Proof.core.run (ws.length + 1) s
        _ = _ := run_succ_of_next hstep
        _ = _ := ih _ (pulseEdge_trace _ w)
        _ = _ := by rw [pulseEdges_cons, pulseEdge_withTrace s w rest, pulseEdge_withTrace s w (_ ++ rest)]

/-- Settles O17: the train is the run of its pulses, and so is requesting them one by one. -/
theorem trainIsItsPulses : Obligations.TrainIsItsPulses := by
  intro s g ws rest htrace
  obtain ⟨trace, draws, result⟩ := returnsNothing_pulseEdges { s with trace := rest } g ws
  exact ⟨_, exec_train g ws _, trace, draws, result, run_pulses (g :: ws) s rest htrace⟩

/-! ### Runs of channel widths -/

/-- What a run of channel widths `ws` makes of the registers of `s`: the widths are stored from the index
on, as far as index 8, and the rest of them discarded (R103). -/
structure CapturedFrom (s : State) (ws : List Stamp) (t : State) : Prop where
  idx       : t.idx.toNat = min (s.idx.toNat + ws.length) 8
  available : t.available = (s.available || decide (ws ≠ [] ∧ s.idx.toNat < 8))
  failsafe  : t.failsafe = s.failsafe
  kept      : ∀ k : Fin 8, k.val < s.idx.toNat ∨ s.idx.toNat + ws.length ≤ k.val → t.ch[k] = s.ch[k]
  stored    : ∀ (j : Nat) (hj : j < ws.length) (k : Fin 8), k.val = s.idx.toNat + j →
    t.ch[k] = channelValue ws[j]

theorem capturedFrom_nil {s : State} (hidx : s.idx.toNat ≤ 8) : CapturedFrom s [] s where
  idx := by simp [hidx]
  available := by simp
  failsafe := rfl
  kept _ _ := rfl
  stored j hj := by simp at hj

/-- A stored width and then a run are one run. -/
theorem capturedFrom_cons_of_inBounds {s u t : State} {w : Stamp} {ws : List Stamp}
    (hu : EdgeEffect w s u) (hw : ChanWidth w) (hidx : s.idx.toNat < 8) (ht : CapturedFrom u ws t) :
    CapturedFrom s (w :: ws) t := by
  obtain ⟨uidx, uavailable, uch⟩ := hu.of_inBounds hw hidx
  refine ⟨?_, ?_, ht.failsafe.trans (hu.failsafe_of_chanWidth hw), fun k hk => ?_, fun j hj k hk => ?_⟩
  · rw [ht.idx, uidx, List.length_cons]; omega
  · simp [ht.available, uavailable, hidx]
  · rw [List.length_cons] at hk
    rw [ht.kept k (by omega), uch, if_neg (by omega)]
  · cases j with
    | zero => rw [ht.kept k (by omega), uch, if_pos (by omega), List.getElem_cons_zero]
    | succ j =>
      rw [List.length_cons] at hj
      rw [ht.stored j (by omega) k (by omega), List.getElem_cons_succ]

/-- A discarded width and then a run are one run. -/
theorem capturedFrom_cons_of_outOfBounds {s u t : State} {w : Stamp} {ws : List Stamp}
    (hu : EdgeEffect w s u) (hw : ChanWidth w) (hidx : s.idx.toNat = 8) (ht : CapturedFrom u ws t) :
    CapturedFrom s (w :: ws) t := by
  obtain ⟨uidx, uavailable, uch⟩ := hu.of_outOfBounds hw hidx.ge
  refine ⟨?_, ?_, ht.failsafe.trans (hu.failsafe_of_chanWidth hw), fun k hk => ?_, fun j hj k hk => ?_⟩
  · rw [ht.idx, uidx]; omega
  · simp [ht.available, uavailable, uidx, hidx]
  · rw [ht.kept k (by rw [uidx]; omega), uch]
  · omega

/-- The captures of a run of channel widths, from any index in 0 to 8. -/
theorem pulseEdges_capturedFrom {ws : List Stamp} (hws : ∀ w ∈ ws, ChanWidth w) {s : State}
    (hidx : s.idx.toNat ≤ 8) : CapturedFrom s ws (s.pulseEdges ws) := by
  induction ws generalizing s with
  | nil => exact capturedFrom_nil hidx
  | cons w ws ih =>
    obtain ⟨hw, hrest⟩ := List.forall_mem_cons.mp hws
    have hedge := pulseEdge_effect s w
    by_cases hin : s.idx.toNat < 8
    · obtain ⟨uidx, -⟩ := hedge.of_inBounds hw hin
      exact capturedFrom_cons_of_inBounds hedge hw hin (ih hrest (by omega))
    · obtain ⟨uidx, -⟩ := hedge.of_outOfBounds hw (by omega)
      exact capturedFrom_cons_of_outOfBounds hedge hw (by omega) (ih hrest (by rw [uidx]; exact hidx))

/-- The channels of a run in one formula, with the stored values as the spec writes them (R105). -/
theorem CapturedFrom.ch_toNat {s t : State} {ws : List Stamp} (h : CapturedFrom s ws t) (k : Fin 8) :
    t.ch[k].toNat =
      if h : s.idx.toNat ≤ k.val ∧ k.val - s.idx.toNat < ws.length
      then storedMicros ws[k.val - s.idx.toNat] else s.ch[k].toNat := by
  split_ifs with hk
  · rw [h.stored _ hk.2 k (by omega), channelValue_toNat_eq_storedMicros]
  · rw [h.kept k (by omega)]

/-! ### The statements about trains -/

/-- Settles O18: the gap clears index and flags, and the widths are captured from index 0 on. -/
theorem trainCapturesItsChannels : Obligations.TrainCapturesItsChannels := by
  intro s g ws hg hws
  obtain ⟨idx, available, failsafe, ch⟩ := (pulseEdge_effect s g).of_syncWidth hg
  have hidx : (s.pulseEdge g).idx.toNat = 0 := by rw [idx]; rfl
  have hrun := pulseEdges_capturedFrom hws (s := s.pulseEdge g) (by omega)
  refine ⟨_, exec_train g ws s, ?_, hrun.failsafe.trans failsafe, ?_,
    pulseEdges_lastEdge s (g :: ws), returnsNothing_pulseEdges s g ws, fun k => ?_⟩
  · rw [pulseEdges_cons, hrun.idx, hidx, Nat.zero_add]
  · rw [pulseEdges_cons, hrun.available]; simp [available, hidx]
  · rw [pulseEdges_cons, hrun.ch_toNat]; simp [hidx, ch]

/-- Settles O19: by `trainCapturesItsChannels` each of the eight registers holds a width of the frame. -/
theorem fullFrameForgetsThePast : Obligations.FullFrameForgetsThePast := by
  intro s₁ s₂ t₁ t₂ g ws hg hws hlength hexec₁ hexec₂
  obtain ⟨_, hnext₁, idx₁, failsafe₁, available₁, -, -, ch₁⟩ := trainCapturesItsChannels s₁ g ws hg hws
  obtain ⟨_, hnext₂, idx₂, failsafe₂, available₂, -, -, ch₂⟩ := trainCapturesItsChannels s₂ g ws hg hws
  cases hnext₁.symm.trans hexec₁
  cases hnext₂.symm.trans hexec₂
  refine ⟨Vector.ext fun k hk => BitVec.eq_of_toNat_eq ?_, BitVec.eq_of_toNat_eq (idx₁.trans idx₂.symm),
    available₁.trans available₂.symm, failsafe₁.trans failsafe₂.symm⟩
  have hstored : k < ws.length := hk.trans_le hlength
  calc t₁.ch[k].toNat
      _ = storedMicros ws[k] := (ch₁ ⟨k, hk⟩).trans (dif_pos hstored)
      _ = t₂.ch[k].toNat := ((ch₂ ⟨k, hk⟩).trans (dif_pos hstored)).symm

/-- Settles O20: the loss keeps the index and sets `FAILSAFE`, and the widths are captured from there on. -/
theorem captureAfterLossIsMisaligned : Obligations.CaptureAfterLossIsMisaligned := by
  intro s g ws hg hws hle
  obtain ⟨idx, available, failsafe, ch⟩ := (pulseEdge_effect s g).of_lostWidth hg
  have hrun := pulseEdges_capturedFrom hws (s := s.pulseEdge g) (by rw [idx]; exact hle)
  refine ⟨_, exec_train g ws s, hrun.failsafe.trans failsafe, ?_, ?_, returnsNothing_pulseEdges s g ws,
    fun k => ?_⟩
  · rw [pulseEdges_cons, hrun.available, available, idx, Bool.false_or]
  · rw [pulseEdges_cons, hrun.idx, idx]
  · rw [pulseEdges_cons, hrun.ch_toNat]; simp [idx, ch]

/-- Available data after an edge was captured by it or was available before it, and only a channel width
leaves it so (40_pulse_decoder.md section 5 (c)). -/
theorem EdgeEffect.of_available {w : Stamp} {s t : State} (h : EdgeEffect w s t)
    (ht : t.available = true) :
    ChanWidth w ∧ (s.idx.toNat < 8 ∨ s.available = true) := by
  cases h with
  | sync _ _ _ available | lost _ _ _ available => simp [available] at ht
  | stored width inBounds => exact ⟨width, .inl inBounds⟩
  | discarded width _ _ _ available => exact ⟨width, .inr (available ▸ ht)⟩

/-- By induction on the run from its end: the last edge captured, or the data was available before it. -/
theorem available_pulseEdges (ws : List Stamp) {s : State} (hs : s.available = false)
    (ht : (s.pulseEdges ws).available = true) :
    ∃ (before after : List Stamp) (w : Stamp), ws = before ++ w :: after ∧ ChanWidth w ∧
      (s.pulseEdges before).idx.toNat < 8 ∧ ∀ v ∈ after, ChanWidth v := by
  induction ws using List.reverseRecOn with
  | nil => simp [State.pulseEdges, hs] at ht
  | append_singleton ws w ih =>
    rw [pulseEdges_concat] at ht
    obtain ⟨hw, hidx | havailable⟩ := (pulseEdge_effect (s.pulseEdges ws) w).of_available ht
    · exact ⟨ws, [], w, rfl, hw, hidx, by simp⟩
    · obtain ⟨before, after, v, rfl, hv, hbefore, hafter⟩ := ih havailable
      exact ⟨before, after ++ [w], v, by simp, hv, hbefore,
        List.forall_mem_append.mpr ⟨hafter, List.forall_mem_singleton.mpr hw⟩⟩

/-- Settles O21: a train is a run of edges. -/
theorem availableMeansCapturedSinceSync : Obligations.AvailableMeansCapturedSinceSync := by
  intro s t g ws hs hexec ht
  cases hexec
  exact available_pulseEdges (g :: ws) hs ht

end Sys2Proof.Machine
end

