-- ==== Sys2Proof/Proofs/Independence.lean ====
section
/-! PROOFS. What the decoder's operations depend on (10_state.md sections 1 and 7) and that the codec's
commute with them (20_memory.md section 7, decision D26). -/

namespace Sys2Proof.Machine

/-! ### Equal registers stay equal -/

theorem SameRegisters.edgeWidth {s t : State} (h : SameRegisters s t) (now : Stamp) :
    t.edgeWidth now = s.edgeWidth now := by
  rw [State.edgeWidth, State.edgeWidth, h.lastEdge]

theorem SameRegisters.capture {s t : State} (h : SameRegisters s t) (w : Stamp) :
    SameRegisters (s.capture w) (t.capture w) := by
  by_cases hidx : s.idx.toNat < 8
  · rw [capture_inBounds w hidx, capture_inBounds w (h.idx ▸ hidx)]
    refine ⟨?_, ?_, ?_, rfl, ?_⟩
    · simp [State.storeAtIdx, h.idx, h.ch, hidx]
    · simp [h.idx]
    · simp [h.lastEdge]
    · simp [h.failsafe]
  · rw [capture_outOfBounds w hidx, capture_outOfBounds w (h.idx ▸ hidx)]
    exact h

/-- What an edge makes of the registers, it makes of equal registers too. -/
theorem SameRegisters.edge {s t : State} (h : SameRegisters s t) (now : Stamp) :
    SameRegisters (s.edge now) (t.edge now) := by
  have hwidth := h.edgeWidth now
  cases hcase : edgeCase (s.edgeWidth now) with
  | sync =>
    rw [edge_of_sync hcase, edge_of_sync (hwidth ▸ hcase)]
    exact ⟨h.ch, rfl, rfl, rfl, rfl⟩
  | lost =>
    rw [edge_of_lost hcase, edge_of_lost (hwidth ▸ hcase)]
    exact ⟨h.ch, h.idx, rfl, rfl, rfl⟩
  | chan =>
    rw [edge_of_chan hcase, edge_of_chan (hwidth ▸ hcase), State.chanEdge, State.chanEdge, hwidth]
    have hcapture := h.capture (s.edgeWidth now)
    exact ⟨hcapture.ch, hcapture.idx, rfl, hcapture.available, hcapture.failsafe⟩

theorem SameRegisters.pulseEdge {s t : State} (h : SameRegisters s t) (w : Stamp) :
    SameRegisters (s.pulseEdge w) (t.pulseEdge w) := by
  rw [State.pulseEdge, State.pulseEdge, h.lastEdge]
  exact h.edge _

theorem SameRegisters.pulseEdges {s t : State} (h : SameRegisters s t) (ws : List Stamp) :
    SameRegisters (s.pulseEdges ws) (t.pulseEdges ws) := by
  induction ws generalizing s t with
  | nil => exact h
  | cons w ws ih => exact ih (h.pulseEdge w)

theorem SameRegisters.snapshot {s t : State} (h : SameRegisters s t) : t.snapshot = s.snapshot := by
  rw [State.snapshot, State.snapshot, h.ch, h.available, h.failsafe]

/-! ### Equal registers give equal outcomes -/

/-- A case row of `EDGE` completes in both of two states with equal registers, or in neither. -/
theorem inEdgeCase_edge_congr {s₁ s₂ t₁ : State} {now : Stamp} {c : EdgeCase} {m : String}
    (hs : SameRegisters s₁ s₂) (h : inEdgeCase s₁ now c m (s₁.edge now) = .next t₁) :
    ∃ t₂, inEdgeCase s₂ now c m (s₂.edge now) = .next t₂ ∧ SameRegisters t₁ t₂ ∧
      t₁.result = t₂.result := by
  obtain ⟨hcase, rfl⟩ := inEdgeCase_next h
  refine ⟨s₂.edge now, inEdgeCase_of_selected _ _ ((hs.edgeWidth now).symm ▸ hcase), hs.edge now, ?_⟩
  rw [edge_result, edge_result]

/-- Settles O27, operation by operation: edges by `SameRegisters.edge`, `RDSNAP` by what a snapshot holds. -/
theorem decoderDependsOnRegistersOnly : Obligations.DecoderDependsOnRegistersOnly := by
  intro i s₁ s₂ t₁ hi hs hexec
  cases i with
  | edge now =>
    cases hexec
    exact ⟨s₂.edge now, exec_edge now s₂, hs.edge now, by rw [edge_result, edge_result]⟩
  | edgeSync now =>
    rw [exec_edgeSync] at hexec ⊢
    exact inEdgeCase_edge_congr hs hexec
  | edgeLost now =>
    rw [exec_edgeLost] at hexec ⊢
    exact inEdgeCase_edge_congr hs hexec
  | edgeChan now =>
    rw [exec_edgeChan] at hexec ⊢
    exact inEdgeCase_edge_congr hs hexec
  | pulse w =>
    cases hexec
    exact ⟨s₂.pulseEdge w, exec_pulse w s₂, hs.pulseEdge w, by rw [pulseEdge_result, pulseEdge_result]⟩
  | train g ws =>
    cases hexec
    refine ⟨s₂.pulseEdges (g :: ws), exec_train g ws s₂, hs.pulseEdges (g :: ws), ?_⟩
    rw [pulseEdges_result _ (List.cons_ne_nil g ws), pulseEdges_result _ (List.cons_ne_nil g ws)]
  | rdsnap =>
    cases hexec
    exact ⟨_, exec_rdsnap s₂, ⟨hs.ch, hs.idx, hs.lastEdge, hs.available, hs.failsafe⟩,
      congrArg (some <| Result.snapshot ·) hs.snapshot.symm⟩
  | reset =>
    cases hexec
    exact ⟨_, exec_reset s₂, ⟨rfl, rfl, rfl, rfl, rfl⟩, rfl⟩
  | encode | decode | decodeRtr | decodeShort | decodePart | decodeFull => cases hi

/-! ### The codec and the edges -/

theorem not_codec_of_edgeAgent {i : Instr} (h : i.agent = .edgeAgent) : isCodecOp i = false := by
  cases i with
  | edge | edgeSync | edgeLost | edgeChan | pulse | train | rdsnap | reset => rfl
  | encode | decode | decodeRtr | decodeShort | decodePart | decodeFull => cases h

/-- An operation of the edge agent takes no draw. -/
theorem draws_of_edgeAgent {i : Instr} {s t : State} (h : i.agent = .edgeAgent)
    (hexec : exec i s = .next t) : t.draws = s.draws := by
  cases exec_effect hexec with
  | edge w _ _ next => rw [next, pulseEdge_draws]
  | train g ws _ next => rw [next, pulseEdges_draws]
  | reset op _ | rdsnap op _ => subst op; cases h
  | codec op _ _ _ => simp [not_codec_of_edgeAgent h] at op

/-- Settles O26: the codec operation changes only the answer and the draws, which an edge does not look
at, and the edge takes no draw, which is all the codec operation looks at. -/
theorem codecCommutesWithEdges : Obligations.CodecCommutesWithEdges := by
  intro i j s t u hi hj hexec_i hexec_j
  obtain ⟨r, n, hnext⟩ | ⟨q, hrefused⟩ := exec_codec_answersFromDraws hi
  · cases (hnext s).symm.trans hexec_i
    have hregisters := sameRegisters_answerFromDraws s r n
    obtain ⟨t', hexec_j', hsame, -⟩ :=
      decoderDependsOnRegistersOnly j _ s u (not_codec_of_edgeAgent hj) hregisters.symm hexec_j
    have hdraws := draws_of_edgeAgent hj hexec_j
    have hdraws' := draws_of_edgeAgent hj hexec_j'
    refine ⟨t', t'.answerFromDraws r n, hexec_j', hnext t',
      hsame.trans (sameRegisters_answerFromDraws t' r n), ?_, ?_⟩
    · rw [hdraws, State.answerFromDraws_draws, State.answerFromDraws_draws, hdraws']
    · rw [State.answerFromDraws_result, State.answerFromDraws_result, hdraws']
  · cases (hrefused s).symm.trans hexec_i

end Sys2Proof.Machine
end

