-- ==== Sys2Proof/Proofs/SnapshotReset.lean ====
section
/-! PROOFS. `RDSNAP` and `RESET` (40_pulse_decoder.md R106 to R108; 70_reset_and_hazards.md R220, R221). -/

namespace Sys2Proof.Machine

theorem chReset_toNat (k : Fin 8) : Config.chReset[k].toNat = 1500 := by
  rw [Config.chReset, Fin.getElem_fin, Vector.getElem_replicate]; rfl

/-- Settles O1. -/
theorem resetStateRegisters : Obligations.ResetStateRegisters :=
  ⟨chReset_toNat, rfl, rfl, rfl, rfl⟩

/-- Settles O28: `RDSNAP` is an answer and nothing else. -/
theorem snapshotReturnsTenValues : Obligations.SnapshotReturnsTenValues :=
  fun s => ⟨_, exec_rdsnap s, rfl, sameRegisters_answer s _, rfl, rfl⟩

theorem snapshot_eq_iff {s₁ s₂ : State} : s₁.snapshot = s₂.snapshot ↔
    s₁.ch = s₂.ch ∧ s₁.available = s₂.available ∧ s₁.failsafe = s₂.failsafe := by
  rw [State.snapshot, State.snapshot, Snapshot.mk.injEq]

/-- Settles O29: the results are the snapshots. -/
theorem snapshotHidesIndexAndTime : Obligations.SnapshotHidesIndexAndTime := by
  intro s₁ s₂ t₁ t₂ hexec₁ hexec₂
  cases hexec₁
  cases hexec₂
  rw [State.answer_result, State.answer_result, Option.some.injEq, Result.snapshot.injEq,
    snapshot_eq_iff]

/-- Settles O30. -/
theorem resetRestoresRegisters : Obligations.ResetRestoresRegisters :=
  fun s => ⟨_, exec_reset s, ⟨rfl, rfl, rfl, rfl, rfl⟩, chReset_toNat, rfl, rfl, rfl, rfl,
    ⟨rfl, rfl, rfl⟩⟩

end Sys2Proof.Machine
end

