-- ==== Sys2Proof/Proofs/Callers.lean ====
section
/-! PROOFS. The callers at the boundary, outside the block (45_environment_boundary.md sections 2 and 3;
log 19). -/

namespace Sys2Proof.Machine

/-! ### The front end -/

/-- Without available data the front end does not look at the channels (R172). -/
theorem frontEnd_of_not_available (k : Nat) {snap : Snapshot} (h : snap.available = false) :
    frontEnd k snap = .neutral := by
  rw [frontEnd, if_neg (by simp [h])]

/-- Settles O45: in each of the situations named, `AVAILABLE` is false. -/
theorem frontEndIsNeutralWithoutData : Obligations.FrontEndIsNeutralWithoutData := by
  refine ⟨fun k s hs => frontEnd_of_not_available k hs, fun k s t hexec => ?_,
    fun k w s t hw hexec => ?_⟩
  · cases hexec
    exact frontEnd_of_not_available k rfl
  · cases hexec
    have heffect := pulseEdge_effect s w
    obtain hsync | hlost := hw
    · obtain ⟨-, available, -⟩ := heffect.of_syncWidth hsync
      exact frontEnd_of_not_available k available
    · obtain ⟨-, available, -⟩ := heffect.of_lostWidth hlost
      exact frontEnd_of_not_available k available

/-! ### The receive loop -/

/-- Whether the command fields may be used is the same of the metadata reported as of those received: the
draw stands where the member has no meaning (R138, R178). -/
theorem commandUsable_reportedMeta (rx : RxMeta) (k : Nat) :
    commandUsable (reportedMeta rx k) = commandUsable rx := by
  cases hrtr : rx.rtr with
  | true => simp [commandUsable, hrtr]
  | false => simp [commandUsable, (reportedMeta_of_data hrtr k).1]

theorem commandUsable_eq_true {rx : RxMeta} :
    commandUsable rx = true ↔ rx.rtr = false ∧ 4 ≤ rx.len.toNat := by
  simp [commandUsable]

/-- The fields of a usable frame that the receive loop reads come from the first four bytes (R141, R142). -/
theorem caseFields_of_usable {rx : RxMeta} (hrtr : rx.rtr = false) (hlow : 4 ≤ rx.len.toNat)
    (p : Payload) (k : Nat) :
    (caseFields (decodeCase rx) p k).driveMode = p[0] ∧
      (caseFields (decodeCase rx) p k).throttle = pairWord p[1] p[2] ∧
      (caseFields (decodeCase rx) p k).steeringAngle = p[3] := by
  cases hcase : decodeCase rx with
  | rtr => simp [decodeCase_eq_rtr.mp hcase] at hrtr
  | short => obtain ⟨-, hshort⟩ := decodeCase_eq_short.mp hcase; omega
  | part | full => exact ⟨rfl, rfl, rfl⟩

theorem receive_of_not_usable (a : Arbiter) {rx : RxMeta} (f : Fields) (h : commandUsable rx = false) :
    a.receive rx f = some a := by
  rw [Arbiter.receive, if_neg (by simp [h])]

/-- A usable frame with `driveMode` 3 selects `RADIO_COMMAND` and is cached (R176, R177). -/
theorem receive_of_radioCommand (a : Arbiter) {rx : RxMeta} {f : Fields} (h : commandUsable rx = true)
    (hmode : f.driveMode = 3) :
    a.receive rx f = some
      { mode := .radioCommand, cache := { throttle := f.throttle, steeringAngle := f.steeringAngle } } := by
  rw [Arbiter.receive, if_pos h, hmode]; rfl

/-- Settles O46: the gate looks at the metadata received, and a usable frame's fields are its bytes. -/
theorem receiveLoopGatesOnMetadata : Obligations.ReceiveLoopGatesOnMetadata := by
  intro rx p s t rx' f a hexec hresult
  obtain ⟨-, rfl, rfl⟩ := exec_decode_result hexec hresult
  refine ⟨fun hclosed => receive_of_not_usable a _ ?_, fun hrtr hlow hmode => ?_⟩
  · rw [commandUsable_reportedMeta, ← Bool.not_eq_true, commandUsable_eq_true]
    rintro ⟨hrtr, hlow⟩
    obtain htrue | hshort := hclosed
    · simp [hrtr] at htrue
    · omega
  · obtain ⟨driveMode, throttle, steeringAngle⟩ := caseFields_of_usable hrtr hlow p (s.draws + 1)
    have husable : commandUsable (reportedMeta rx s.draws) = true := by
      rw [commandUsable_reportedMeta, commandUsable_eq_true]; exact ⟨hrtr, hlow⟩
    refine ⟨_, receive_of_radioCommand a husable (driveMode.trans hmode), rfl, ?_, steeringAngle⟩
    rw [throttle, pairWord_toNat, bigEndian]

end Sys2Proof.Machine
end
